-- ==== Sys2Proof/Word.lean ====
section
/-! DEFINITION. The words of ROCCA-CORE: bytes, byte strings and 128-bit Blocks (00_scope R10, R11). -/

namespace Sys2Proof

/-- A byte, an integer 0 to 255 (R10). -/
abbrev Byte := BitVec 8

/-- A byte string; `b[i]` is the element at index `i` (R10). -/
abbrev Bytes := List Byte

/-- A Block: 16 bytes. It is held as the unsigned integer that R11 reads from it, so bit `k` of the
Block is bit `k mod 8` of byte `k div 8` (R10, R11; log 11). -/
abbrev Block := BitVec 128

end Sys2Proof
end

