-- ==== Sys2Proof/Config.lean ====
section
/-! DEFINITION. What is fixed for one machine: the sizes of 00_scope R7 and the two open parameters of R8. -/

namespace Sys2Proof.Config

/-- KEYLEN, in bytes (R7). -/
abbrev keyLen : Nat := 32

/-- NONCELEN, in bytes (R7). -/
abbrev nonceLen : Nat := 16

/-- TAGLEN, in bytes (R7). -/
abbrev tagLen : Nat := 16

/-- RATE: the bytes absorbed in one step (R7). -/
abbrev rate : Nat := 32

/-- INIT_ROUNDS and FINAL_ROUNDS are both 20 (R7). -/
abbrev rounds : Nat := 20

end Sys2Proof.Config

namespace Sys2Proof

/-- The `kind` argument of MemOK: read or write (R8). -/
inductive AccessKind where
  | read
  | write
deriving DecidableEq, Repr

/-- The two open parameters of R8. AW is `aw`, with its bounds; a machine outside them cannot be built
(93 U2). MemOK is held as plain data: the list of the argument triples at which it is false. Addresses,
lengths and kinds are finitely many, so every predicate MemOK is such a list (log 2, log 3). -/
structure Platform where
  aw : Nat
  awMin : 6 ≤ aw
  awMax : aw ≤ 125
  denied : List (Nat × Nat × AccessKind)
deriving DecidableEq, Repr

/-- MemOK(addr, n, kind) (R8). -/
abbrev Platform.memOK (p : Platform) (addr n : Nat) (kind : AccessKind) : Bool :=
  decide ((addr, n, kind) ∉ p.denied)

/-- The region of `n` bytes at `addr` lies in the address space of 2^AW bytes (20_memory R50, 45_commands
R145); a region of no bytes touches no address (00_scope R16). -/
abbrev Platform.holds (p : Platform) (addr n : Nat) : Prop :=
  n = 0 ∨ addr + n ≤ 2 ^ p.aw

/-- The parameters of the spec's test vectors: AW = 64, MemOK always true (R8, 95_test_vectors). -/
def Platform.vectors : Platform :=
  { aw := 64, awMin := by decide, awMax := by decide, denied := [] }

end Sys2Proof
end

