-- ==== Sys2Proof/Syntax.lean ====
section
/-! DEFINITION. The fifteen instructions of spec/opcode_table.json and the host's actions. -/

namespace Sys2Proof

/-- One constructor per row of the opcode table: the two host commands (30_encoding R72) and the thirteen
micro-operations (R77, R78). None carries an operand field (R74); the don't-care bits of a USEL pattern
say nothing about the instruction and are not kept. -/
inductive Instr where
  | encrypt
  | decrypt
  | uLoad
  | uInitr
  | uAdfull
  | uAdpart
  | uEncfull
  | uEncpart
  | uDecfull
  | uDecpart
  | uFinr
  | uTagout
  | uTagchk
  | uWipe
  | uClear
deriving DecidableEq, Repr

/-- What the host can do: the lines of the host-script notation (30_encoding R85), the host's memory
read (45_commands R150) and the reset input (70_reset_and_hazards R180). -/
inductive HostAction where
  /-- `wr`: HostWrite(rn, v). -/
  | write (rn : BitVec 4) (v : Nat)
  /-- `rd`: HostRead(rn). -/
  | read (rn : BitVec 4)
  /-- `mem`: the host stores a byte string at an address, legal while BUSY = 0 only. -/
  | store (addr : Nat) (bytes : Bytes)
  /-- The host reads `n` bytes of memory, legal while BUSY = 0 only. -/
  | load (addr n : Nat)
  /-- `run`: the core steps until BUSY = 0. -/
  | run
  /-- `step n`: the core takes `n` steps. -/
  | step (n : Nat)
  /-- The reset input is asserted. -/
  | reset
deriving DecidableEq, Repr

/-- What a host access returned to the host (00_scope R17, 10_state R32). -/
inductive Seen where
  | reg (rn : BitVec 4) (v : Nat)
  | mem (addr : Nat) (bytes : Bytes)
deriving DecidableEq, Repr

end Sys2Proof
end

