-- ==== Sys2Proof/WellFormed.lean ====
section
/-! DEFINITION. Which terms of the syntax the spec admits. -/

namespace Sys2Proof

/-- Every instruction is well formed: "A command word carries no operand and no immediate", and a
micro-operation names its operands itself (30_encoding R74), so no field of one can be out of range. -/
def Instr.wellFormed : Instr → Bool
  | .encrypt | .decrypt => true
  | .uLoad | .uInitr => true
  | .uAdfull | .uAdpart => true
  | .uEncfull | .uEncpart | .uDecfull | .uDecpart => true
  | .uFinr | .uTagout | .uTagchk | .uWipe | .uClear => true

/-- A host-script line is well formed when its register has a name in the map of 10_state R29 (30_encoding
R85: "NAME is a register name of rule R29") and the memory it names lies in the address space (20_memory
R50). A written value may be any integer: the write drops the bits it has no room for (10_state R30). That
`mem` is legal while BUSY = 0 only is a matter of the state (Machine/Sequencer.lean, `hostMemory`). -/
def HostAction.wellFormed (p : Platform) : HostAction → Bool
  | .write rn _ => decide (rn.toNat ≤ 10)
  | .read rn => decide (rn.toNat ≤ 10)
  | .store addr bytes => decide (p.holds addr bytes.length)
  | .load addr n => decide (p.holds addr n)
  | .run | .step _ | .reset => true

end Sys2Proof
end

