-- ==== Sys2Proof/Decode.lean ====
section
/-! DEFINITION. The two formats of 30_encoding (CMD, 32 bits; USEL, 6 bits): decoder, then encoder. -/

namespace Sys2Proof

/-- An encoded instruction in one of the two formats (R70). -/
inductive Encoded where
  | cmd (w : BitVec 32)
  | usel (w : BitVec 6)
deriving DecidableEq, Repr

/-- Why a word is no instruction. -/
inductive DecodeFault where
  /-- A CMD word other than 0x00000001 and 0x00000002 (R73). -/
  | illegalCommandWord
  /-- A USEL value that matches no row (R79). -/
  | unreachablePhase
deriving DecidableEq, Repr

/-- One row of an opcode table: the word is the instruction's when `word & mask = pattern` (R87). -/
structure Row (n : Nat) where
  pattern : BitVec n
  mask : BitVec n
  instr : Instr
deriving DecidableEq, Repr

/-- The command opcodes (R72): all 32 bits are compared. -/
def cmdRows : List (Row 32) :=
  [⟨0x00000001#32, 0xFFFFFFFF#32, .encrypt⟩,
   ⟨0x00000002#32, 0xFFFFFFFF#32, .decrypt⟩]

/-- The decode table of the micro-operations (R77). -/
def uselRows : List (Row 6) :=
  [⟨0b000100#6, 0b111100#6, .uLoad⟩,
   ⟨0b001000#6, 0b111100#6, .uInitr⟩,
   ⟨0b001101#6, 0b111101#6, .uAdfull⟩,
   ⟨0b001100#6, 0b111101#6, .uAdpart⟩,
   ⟨0b010001#6, 0b111111#6, .uEncfull⟩,
   ⟨0b010000#6, 0b111111#6, .uEncpart⟩,
   ⟨0b010011#6, 0b111111#6, .uDecfull⟩,
   ⟨0b010010#6, 0b111111#6, .uDecpart⟩,
   ⟨0b010100#6, 0b111100#6, .uFinr⟩,
   ⟨0b011000#6, 0b111110#6, .uTagout⟩,
   ⟨0b011010#6, 0b111110#6, .uTagchk⟩,
   ⟨0b011100#6, 0b111100#6, .uWipe⟩,
   ⟨0b100000#6, 0b111100#6, .uClear⟩]

/-- The row test of R87. -/
def Row.selects {n : Nat} (r : Row n) (w : BitVec n) : Bool := w &&& r.mask == r.pattern

/-- The instruction of the first row that selects the word; no two rows do (R87). -/
def lookupRow {n : Nat} : List (Row n) → BitVec n → Option Instr
  | [], _ => none
  | r :: rows, w => if r.selects w then some r.instr else lookupRow rows w

/-- Which command a CMD word selects (R72, R73). -/
def decodeCmd (w : BitVec 32) : Except DecodeFault Instr :=
  match lookupRow cmdRows w with
  | some i => .ok i
  | none => .error .illegalCommandWord

/-- Which micro-operation a selector selects (R77); any other value gives UnreachablePhase (R79). -/
def decodeUsel (w : BitVec 6) : Except DecodeFault Instr :=
  match lookupRow uselRows w with
  | some i => .ok i
  | none => .error .unreachablePhase

/-- The decoder of both formats, total on every word. -/
def decode : Encoded → Except DecodeFault Instr
  | .cmd w => decodeCmd w
  | .usel w => decodeUsel w

/-- Format USEL, `PHASE * 4 + DIR * 2 + FULL` (R75). -/
def uselWord (phase : BitVec 4) (dir full : Bool) : BitVec 6 :=
  phase ++ BitVec.ofBool dir ++ BitVec.ofBool full

/-- The encoding of an instruction (R72, R77). A row's don't-care bits are filled with `dir` and `full`,
which is what the core itself puts there. -/
def encode (i : Instr) (dir full : Bool) : Encoded :=
  match i with
  | .encrypt => .cmd 0x00000001#32
  | .decrypt => .cmd 0x00000002#32
  | .uLoad => .usel (uselWord 1#4 dir full)
  | .uInitr => .usel (uselWord 2#4 dir full)
  | .uAdfull => .usel (uselWord 3#4 dir true)
  | .uAdpart => .usel (uselWord 3#4 dir false)
  | .uEncfull => .usel (uselWord 4#4 false true)
  | .uEncpart => .usel (uselWord 4#4 false false)
  | .uDecfull => .usel (uselWord 4#4 true true)
  | .uDecpart => .usel (uselWord 4#4 true false)
  | .uFinr => .usel (uselWord 5#4 dir full)
  | .uTagout => .usel (uselWord 6#4 false full)
  | .uTagchk => .usel (uselWord 6#4 true full)
  | .uWipe => .usel (uselWord 7#4 dir full)
  | .uClear => .usel (uselWord 8#4 dir full)

/-- The word of a table row by its width in whole bytes: 32 bits is format CMD, 8 bits (or the table's
own 6) is format USEL, whose two bits above the selector must be 0 (log 14). -/
def tableWord (nbits w : Nat) : Option Encoded :=
  if nbits ≤ 8 then
    if w < 64 then some (.usel (BitVec.ofNat 6 w)) else none
  else if w < 2 ^ 32 then some (.cmd (BitVec.ofNat 32 w)) else none

/-- The instruction this decoder reads from a word of the opcode table. -/
def decodeTableWord (nbits w : Nat) : Option Instr :=
  match tableWord nbits w with
  | none => none
  | some e =>
    match decode e with
    | .ok i => some i
    | .error _ => none

end Sys2Proof
end

