-- ==== Sys2Proof/Machine/State.lean ====
section
/-! DEFINITION. The state of ROCCA-CORE (10_state R40), the memory, the host's side, and reset. -/

namespace Sys2Proof.Machine

/-- The eight lanes S[0] to S[7] (R21). -/
structure Lanes where
  s0 : Block
  s1 : Block
  s2 : Block
  s3 : Block
  s4 : Block
  s5 : Block
  s6 : Block
  s7 : Block
deriving DecidableEq, Repr

/-- ZERO in every lane: their value after reset and after U_CLEAR (R40, 44_finalize_uops R135). -/
def Lanes.zero : Lanes := ⟨0, 0, 0, 0, 0, 0, 0, 0⟩

/-- PHASE, a 4-bit register (R25). -/
abbrev Phase := BitVec 4

/-- Code 0 of R25. -/
abbrev Phase.idle : Phase := 0#4
/-- Code 1 of R25. -/
abbrev Phase.load : Phase := 1#4
/-- Code 2 of R25. -/
abbrev Phase.initr : Phase := 2#4
/-- Code 3 of R25. -/
abbrev Phase.ad : Phase := 3#4
/-- Code 4 of R25. -/
abbrev Phase.msg : Phase := 4#4
/-- Code 5 of R25. -/
abbrev Phase.finr : Phase := 5#4
/-- Code 6 of R25. -/
abbrev Phase.tag : Phase := 6#4
/-- Code 7 of R25. -/
abbrev Phase.wipe : Phase := 7#4
/-- Code 8 of R25. -/
abbrev Phase.clear : Phase := 8#4

/-- Memory: address and byte pairs in the canonical form of `Memory.wf` (Machine/Ops.lean). -/
abbrev Memory := List Host.Cell

/-- The state. The fields down to `mem` are those of 10_state R40, each under its spec name; the last three
are the model's own (log 2, log 4, log 15). Address and length registers are AW bits wide; they are held as
the unsigned integers the spec computes with, and the invariant keeps them below 2^AW (log 10). -/
structure State where
  /-- S[0] to S[7] (R21) -/
  lanes : Lanes
  /-- PHASE (R25) -/
  phase : Phase
  /-- DIR: true while a DECRYPT runs (R24) -/
  dir : Bool
  /-- RC (R26) -/
  rc : BitVec 5
  /-- ADPOS (R27) -/
  adpos : Nat
  /-- MPOS (R27) -/
  mpos : Nat
  /-- STATUS.BUSY (R34) -/
  statusBusy : Bool
  /-- STATUS.DONE (R34) -/
  statusDone : Bool
  /-- STATUS.WBUSY (R34) -/
  statusWbusy : Bool
  /-- STATUS.CODE (R34) -/
  statusCode : BitVec 4
  /-- KEY_ADDR, rn 2 (R29) -/
  keyAddr : Nat
  /-- NONCE_ADDR, rn 3 (R29) -/
  nonceAddr : Nat
  /-- AD_ADDR, rn 4 (R29) -/
  adAddr : Nat
  /-- AD_LEN, rn 5 (R29) -/
  adLen : Nat
  /-- SRC_ADDR, rn 6 (R29) -/
  srcAddr : Nat
  /-- DST_ADDR, rn 7 (R29) -/
  dstAddr : Nat
  /-- MSG_LEN, rn 8 (R29) -/
  msgLen : Nat
  /-- TAG_ADDR, rn 9 (R29) -/
  tagAddr : Nat
  /-- memory (20_memory R50) -/
  mem : Memory
  /-- AW and MemOK (00_scope R8) -/
  platform : Platform
  /-- the host's coming actions, the next one first (log 4) -/
  host : List HostAction
  /-- what the host has read so far, newest first (log 15) -/
  seen : List Seen
deriving DecidableEq, Repr

/-- Why the machine stops. None of these is reached from a state that satisfies the invariant. -/
inductive Fault where
  /-- Raised by the core's step when its selector matches no row (30_encoding R79). Safe. -/
  | unreachablePhase
  /-- Raised by a memory access at or above 2^AW, where no byte exists (20_memory R50). Safe (log 9). -/
  | addressOutsideSpace
  /-- Raised by U_ADPART, U_ENCPART and U_DECPART when the bytes left are not 1 to 31, which their
  encoding excludes (42_absorb_uops R116, 43_message_uops R121, R123). Safe (log 7). -/
  | partialLengthNot1To31
  /-- Raised by U_FINR when a length is not below 2^125, where LenBlock is not defined
  (40_datapath_functions R102). Safe (log 8). -/
  | lengthNotBelow2Pow125
deriving DecidableEq, Repr

/-- What the model will not run. -/
inductive Refusal where
  /-- An instruction without a meaning, by its mnemonic; no arm uses it. Safe. -/
  | notModelled (mnemonic : String)
  /-- Raised by a host memory access on a region borrowed by the running command: the host has no such
  move (20_memory R60, 60_exceptions R177). Unsafe for a host that breaks this duty (log 6). -/
  | borrowedRegion
  /-- Raised by any other host memory access while BUSY = 1: the host has memory moves while BUSY = 0
  (30_encoding R85, 45_commands R150). Unsafe for a host that makes it nevertheless (log 6). -/
  | memoryWhileBusy
deriving DecidableEq, Repr

/-- The machine after reset (R40, 70_reset_and_hazards R181), memory with nothing listed, on the platform
of the test vectors (log 2), with no host action pending (log 4). -/
def State.reset : State :=
  { lanes := Lanes.zero
    phase := Phase.idle
    dir := false
    rc := 0
    adpos := 0
    mpos := 0
    statusBusy := false
    statusDone := false
    statusWbusy := false
    statusCode := 0
    keyAddr := 0
    nonceAddr := 0
    adAddr := 0
    adLen := 0
    srcAddr := 0
    dstAddr := 0
    msgLen := 0
    tagAddr := 0
    mem := []
    platform := Platform.vectors
    host := []
    seen := [] }

end Sys2Proof.Machine
end

