-- ==== Sys2Proof/Machine/Datapath.lean ====
section
/-! DEFINITION. The pure functions of 40_datapath_functions, with the byte order of 00_scope R11. -/

namespace Sys2Proof.Machine

/-- `le(b)`: the little-endian value of a byte string (R11). -/
def le : Bytes → Nat
  | [] => 0
  | b :: bs => b.toNat + 256 * le bs

/-- `le128(v)`: the Block with `le(le128(v)) = v`, for v below 2^128 (R11). -/
def le128 (v : Nat) : Block := BitVec.ofNat 128 v

/-- The Block whose bytes are the given 16. -/
def blockOfBytes (b : Bytes) : Block := le128 (le b)

/-- Byte `k` of a Block: its bits 8k+7 to 8k (R11). -/
def blockByte (b : Block) (k : Nat) : Byte := b.extractLsb' (8 * k) 8

/-- The 16 bytes of a Block, byte 0 first (R10). -/
def blockBytes (b : Block) : Bytes := (List.range 16).map (blockByte b)

/-- `b[i..i+16]` as a Block (R10). -/
def blockAt (b : Bytes) (i : Nat) : Block := blockOfBytes ((b.drop i).take 16)

/-- Byte-wise exclusive or of two byte strings (R14). -/
def xorBytes (a b : Bytes) : Bytes := List.zipWith (· ^^^ ·) a b

/-- Row `h` of the S-box table, its columns 0 to f from left to right (R92). -/
def sboxRow : Nat → Nat
  | 0 => 0x637c777bf26b6fc53001672bfed7ab76
  | 1 => 0xca82c97dfa5947f0add4a2af9ca472c0
  | 2 => 0xb7fd9326363ff7cc34a5e5f171d83115
  | 3 => 0x04c723c31896059a071280e2eb27b275
  | 4 => 0x09832c1a1b6e5aa0523bd6b329e32f84
  | 5 => 0x53d100ed20fcb15b6acbbe394a4c58cf
  | 6 => 0xd0efaafb434d338545f9027f503c9fa8
  | 7 => 0x51a3408f929d38f5bcb6da2110fff3d2
  | 8 => 0xcd0c13ec5f974417c4a77e3d645d1973
  | 9 => 0x60814fdc222a908846eeb814de5e0bdb
  | 10 => 0xe0323a0a4906245cc2d3ac629195e479
  | 11 => 0xe7c8376d8dd54ea96c56f4ea657aae08
  | 12 => 0xba78252e1ca6b4c6e8dd741f4bbd8b8a
  | 13 => 0x703eb5664803f60e613557b986c11d9e
  | 14 => 0xe1f8981169d98e949b1e87e9ce5528df
  | _ => 0x8ca1890dbfe6426841992d0fb054bb16

/-- `SBOX[x]`: row = high hex digit, column = low hex digit (R92). -/
def sbox (x : Byte) : Byte :=
  BitVec.ofNat 8 (sboxRow (x.toNat / 16) >>> (8 * (15 - x.toNat % 16)))

/-- SubBytes (R92). -/
def subBytes (b : Block) : Block := blockOfBytes ((blockBytes b).map sbox)

/-- ShiftRows: byte `4c + r` of the result is byte `4((c + r) mod 4) + r` of the input (R93). -/
def shiftRows (b : Block) : Block :=
  blockOfBytes ((List.range 16).map fun k => blockByte b (4 * ((k / 4 + k % 4) % 4) + k % 4))

/-- Multiplication by 2 in GF(2^8) (R95). -/
def mul2 (x : Byte) : Byte := (x <<< 1) ^^^ (if 0x80#8 ≤ x then 0x1B#8 else 0x00#8)

/-- Multiplication by 3 in GF(2^8) (R95). -/
def mul3 (x : Byte) : Byte := mul2 x ^^^ x

/-- One column of MixColumns (R94). -/
def mixColumn (a0 a1 a2 a3 : Byte) : Bytes :=
  [mul2 a0 ^^^ mul3 a1 ^^^ a2 ^^^ a3,
   a0 ^^^ mul2 a1 ^^^ mul3 a2 ^^^ a3,
   a0 ^^^ a1 ^^^ mul2 a2 ^^^ mul3 a3,
   mul3 a0 ^^^ a1 ^^^ a2 ^^^ mul2 a3]

/-- MixColumns, column by column (R94). -/
def mixColumns (b : Block) : Block :=
  blockOfBytes ((List.range 4).flatMap fun c =>
    mixColumn (blockByte b (4 * c)) (blockByte b (4 * c + 1))
      (blockByte b (4 * c + 2)) (blockByte b (4 * c + 3)))

/-- AesRound(B, K): SubBytes first, the key exclusive-ored last (R96, 90_conflicts C2). -/
def aesRound (b k : Block) : Block := mixColumns (shiftRows (subBytes b)) ^^^ k

/-- Z0, by its literal (R97, 90_conflicts C1). -/
def z0 : Block := le128 0x428a2f98d728ae227137449123ef65cd

/-- Z1, by its literal (R97). -/
def z1 : Block := le128 0xb5c0fbcfec4d3b2fe9b5dba58189dbbc

/-- Update(S, X0, X1): every lane on the right is the old one (R98, R184). -/
def update (S : Lanes) (x0 x1 : Block) : Lanes :=
  { s0 := S.s7 ^^^ x0
    s1 := aesRound S.s0 S.s7
    s2 := S.s1 ^^^ S.s6
    s3 := aesRound S.s2 S.s1
    s4 := S.s3 ^^^ x1
    s5 := aesRound S.s4 S.s3
    s6 := aesRound S.s5 S.s4
    s7 := S.s0 ^^^ S.s6 }

/-- Update with the two Blocks of a 32-byte string, `P[0..16]` and `P[16..32]` (R101, R115). -/
def absorb (S : Lanes) (p : Bytes) : Lanes := update S (blockAt p 0) (blockAt p 16)

/-- Keystream(S), 32 bytes (R99). -/
def keystream (S : Lanes) : Bytes :=
  blockBytes (aesRound S.s1 S.s5) ++ blockBytes (aesRound (S.s0 ^^^ S.s4) S.s2)

/-- InitLanes(key, nonce) (R100). -/
def initLanes (key nonce : Bytes) : Lanes :=
  let k0 := blockAt key 0
  let k1 := blockAt key 16
  let n := blockAt nonce 0
  ⟨k1, n, z0, z1, n ^^^ k1, 0, k0, 0⟩

/-- Pad32(b): zeros up to 32 bytes (R101). -/
def pad32 (b : Bytes) : Bytes := b ++ List.replicate (32 - b.length) 0

/-- LenBlock(n) = le128(8 * n), defined for n below 2^125 (R102); U_FINR faults above (log 8). -/
def lenBlock (n : Nat) : Block := le128 (8 * n)

/-- TagOf(S) (R103). -/
def tagOf (S : Lanes) : Block :=
  S.s0 ^^^ S.s1 ^^^ S.s2 ^^^ S.s3 ^^^ S.s4 ^^^ S.s5 ^^^ S.s6 ^^^ S.s7

/-- TagDiff(T, T'): all sixteen byte differences, combined by or (R104). -/
def tagDiff (t t' : Block) : Byte :=
  (List.range 16).foldl (fun d k => d ||| (blockByte t k ^^^ blockByte t' k)) 0

/-- WIPE_BYTE (R7, 90_conflicts C5). -/
def wipeByte : Byte := 0xAA#8

end Sys2Proof.Machine
end

