-- ==== Sys2Proof/Machine/Ops.lean ====
section
/-! DEFINITION. The shared operations: memory, rounds, recording a failure and its acknowledgement. -/

namespace Sys2Proof.Machine

/-- What a byte of memory that nothing has written reads as. DESIGN CHOICE, unsafe (log 1). -/
def Memory.unlisted : Byte := 0#8

/-- The canonical form: addresses strictly rising, no entry equal to what an unlisted address reads as. -/
abbrev Memory.wf (m : Memory) : Prop :=
  m.Pairwise (fun c d => c.1 < d.1) ∧ ∀ c ∈ m, c.2 ≠ Memory.unlisted

/-- The byte at an address (R16, R61: a plain map from address to byte). -/
def Memory.byteAt : Memory → Nat → Byte
  | [], _ => Memory.unlisted
  | (k, v) :: m, a => if a = k then v else Memory.byteAt m a

/-- The memory with one byte stored; the canonical form is kept. -/
def Memory.put : Memory → Nat → Byte → Memory
  | [], a, b => if b = Memory.unlisted then [] else [(a, b)]
  | (k, v) :: m, a, b =>
    if a < k then if b = Memory.unlisted then (k, v) :: m else (a, b) :: (k, v) :: m
    else if a = k then if b = Memory.unlisted then m else (a, b) :: m
    else (k, v) :: Memory.put m a b

/-- MemRead(addr, n): byte k of the string is the memory byte at addr + k (R16). -/
def Memory.bytesAt (m : Memory) : Nat → Nat → Bytes
  | _, 0 => []
  | a, n + 1 => m.byteAt a :: Memory.bytesAt m (a + 1) n

/-- MemWrite(addr, n, v): byte k of the string goes to address addr + k, k ascending (R16). -/
def Memory.putBytes : Memory → Nat → Bytes → Memory
  | m, _, [] => m
  | m, a, b :: bs => Memory.putBytes (m.put a b) (a + 1) bs

/-- The outcome of one step of this machine. -/
abbrev Result := Host.Outcome State Fault Refusal

/-- A MemRead, and what is done with the string; an address outside the space does not exist (R50, log 9). -/
def readThen (s : State) (a n : Nat) (k : Bytes → Result) : Result :=
  if s.platform.holds a n then k (s.mem.bytesAt a n) else .fault .addressOutsideSpace

/-- A MemWrite, and what is done with the state after it. -/
def writeThen (s : State) (a : Nat) (bs : Bytes) (k : State → Result) : Result :=
  if s.platform.holds a bs.length then k { s with mem := s.mem.putBytes a bs }
  else .fault .addressOutsideSpace

/-- The number of bytes left for a partial step, 1 to 31 (R116, R121, R123; log 7). -/
def partialThen (len pos : Nat) (k : Nat → Result) : Result :=
  if pos < len ∧ len - pos ≤ 31 then k (len - pos) else .fault .partialLengthNot1To31

/-- The end of a round: after round 19 RC returns to 0 and PHASE moves on, else RC counts (R111, R130). -/
def finishRound (next : Phase) (s : State) : State :=
  { s with
    rc := if s.rc = 19 then 0 else s.rc + 1
    phase := if s.rc = 19 then next else s.phase }

/-- Taking a failure: `refuse(c)` records DONE and the code and nothing else (45_commands R146). This, and
`raiseAuthFail` for the one failure of a running command, is the whole of "trap entry": nothing is saved,
no mode changes, control goes nowhere (60_exceptions R169). -/
def refuse (c : BitVec 4) (s : State) : State := { s with statusDone := true, statusCode := c }

/-- `raise AuthFail` sets CODE to 1 and does nothing else (44_finalize_uops R133). -/
def raiseAuthFail (s : State) : State := { s with statusCode := 1 }

/-- The acknowledgement of a result by the next CMD write (60_exceptions R170): DONE, CODE and WBUSY are
cleared (45_commands R144). -/
def clearResult (s : State) : State :=
  { s with statusDone := false, statusCode := 0, statusWbusy := false }

/-- ERR_OPCODE (60_exceptions R160). -/
abbrev errOpcode : BitVec 4 := 2
/-- ERR_RANGE (R160). -/
abbrev errRange : BitVec 4 := 4
/-- ERR_OVERLAP (R160). -/
abbrev errOverlap : BitVec 4 := 5
/-- ERR_ACCESS (R160). -/
abbrev errAccess : BitVec 4 := 6

end Sys2Proof.Machine
end

