-- ==== Sys2Proof/Machine/Operands.lean ====
section
/-! DEFINITION. Operands: effective addresses, the regions of a command and their checks, the selector,
the successor phases. -/

namespace Sys2Proof.Machine

/-- Where the next chunk of associated data is read (R56, R157). -/
def adChunkAddr (s : State) : Nat := s.adAddr + s.adpos

/-- Where the next message chunk is read (R56, R157). -/
def srcChunkAddr (s : State) : Nat := s.srcAddr + s.mpos

/-- Where the next output chunk is written (R56, R157). -/
def dstChunkAddr (s : State) : Nat := s.dstAddr + s.mpos

/-- The names of the six regions (45_commands R149). -/
inductive RegionName where
  | key
  | nonce
  | ad
  | src
  | dst
  | tag
deriving DecidableEq, Repr

/-- One region of a command: name, address, length, and whether the core writes it (R149). -/
structure Region where
  name : RegionName
  addr : Nat
  len : Nat
  output : Bool
deriving DecidableEq, Repr

/-- Regions(d), d true for DECRYPT (R149). -/
def regions (d : Bool) (s : State) : List Region :=
  [⟨.key, s.keyAddr, Config.keyLen, false⟩,
   ⟨.nonce, s.nonceAddr, Config.nonceLen, false⟩,
   ⟨.ad, s.adAddr, s.adLen, false⟩,
   ⟨.src, s.srcAddr, s.msgLen, false⟩,
   ⟨.dst, s.dstAddr, s.msgLen, true⟩,
   ⟨.tag, s.tagAddr, Config.tagLen, !d⟩]

/-- Two stretches of memory overlap (R147). -/
abbrev overlap (a1 n1 a2 n2 : Nat) : Prop := 0 < n1 ∧ 0 < n2 ∧ a1 < a2 + n2 ∧ a2 < a1 + n1

/-- The sanctioned aliasing: SRC and DST at one address (R147). -/
abbrev inPlace (r q : Region) : Prop :=
  ((r.name = .dst ∧ q.name = .src) ∨ (r.name = .src ∧ q.name = .dst)) ∧ r.addr = q.addr

/-- An output region `r` clashes with another region `q` (R147). -/
abbrev clash (r q : Region) : Prop :=
  r.output = true ∧ r.name ≠ q.name ∧ overlap r.addr r.len q.addr q.len ∧ ¬ inPlace r q

/-- Range check: no region runs past 2^AW (R145). -/
def rangeOK (d : Bool) (s : State) : Bool :=
  decide (∀ r ∈ regions d s, s.platform.holds r.addr r.len)

/-- Overlap check: no output region overlaps another region (R147). -/
def overlapOK (d : Bool) (s : State) : Bool :=
  decide (∀ r ∈ regions d s, ∀ q ∈ regions d s, ¬ clash r q)

/-- The kind of access a region gets (R148). -/
def Region.kind (r : Region) : AccessKind := if r.output then .write else .read

/-- Access check: MemOK for every region that has bytes (R148). -/
def accessOK (d : Bool) (s : State) : Bool :=
  decide (∀ r ∈ regions d s, 0 < r.len → s.platform.memOK r.addr r.len r.kind = true)

/-- FULL: at least 32 bytes remain in the phase's buffer (30_encoding R76). -/
def fullBit (s : State) : Bool :=
  if s.phase = Phase.ad then decide (32 ≤ s.adLen - s.adpos)
  else if s.phase = Phase.msg then decide (32 ≤ s.msgLen - s.mpos)
  else false

/-- USEL, formed from the state at the start of a step (R75). -/
def usel (s : State) : BitVec 6 := uselWord s.phase s.dir (fullBit s)

/-- AfterInit() (R81). -/
def afterInit (s : State) : Phase :=
  if 0 < s.adLen then Phase.ad else if 0 < s.msgLen then Phase.msg else Phase.finr

/-- AfterAD(p) (R82). -/
def afterAD (s : State) (p : Nat) : Phase :=
  if p < s.adLen then Phase.ad else if 0 < s.msgLen then Phase.msg else Phase.finr

/-- AfterMSG(p) (R83). -/
def afterMSG (s : State) (p : Nat) : Phase :=
  if p < s.msgLen then Phase.msg else Phase.finr

end Sys2Proof.Machine
end

