-- ==== Sys2Proof/Machine/Flags.lean ====
section
/-! DEFINITION. The status flags and the words the host reads (10_state R34, R36, R37). -/

namespace Sys2Proof.Machine

/-- The STATUS word: bits 31:12 zero, PHASE, CODE, bit 3 zero, WBUSY, DONE, BUSY (R34). -/
def statusWord (s : State) : BitVec 32 :=
  0#20 ++ s.phase ++ s.statusCode ++ 0#1 ++ BitVec.ofBool s.statusWbusy
    ++ BitVec.ofBool s.statusDone ++ BitVec.ofBool s.statusBusy

/-- The PARAMS word: 0, tag length, nonce length, key length, a byte each (R36). -/
def paramsWord : BitVec 32 :=
  0#8 ++ BitVec.ofNat 8 Config.tagLen ++ BitVec.ofNat 8 Config.nonceLen
    ++ BitVec.ofNat 8 Config.keyLen

/-- A host write arrived while BUSY = 1: WBUSY is set and nothing else changes (R31, R166). -/
def noteWbusy (s : State) : State := { s with statusWbusy := true }

end Sys2Proof.Machine
end

