-- ==== Sys2Proof/Machine/Absorb.lean ====
section
/-! DEFINITION. 42_absorb_uops: U_ADFULL, U_ADPART. -/

namespace Sys2Proof.Machine

/-- U_ADFULL (R115). -/
def execUAdfull (s : State) : Result :=
  readThen s (adChunkAddr s) 32 fun p =>
  .next { s with
    lanes := absorb s.lanes p, adpos := s.adpos + 32, phase := afterAD s (s.adpos + 32) }

/-- U_ADPART (R116). -/
def execUAdpart (s : State) : Result :=
  partialThen s.adLen s.adpos fun r =>
  readThen s (adChunkAddr s) r fun b =>
  .next { s with
    lanes := absorb s.lanes (pad32 b), adpos := s.adLen, phase := afterAD s s.adLen }

end Sys2Proof.Machine
end

