-- ==== Sys2Proof/Machine/Commands.lean ====
section
/-! DEFINITION. 45_commands: what a CMD write that selects ENCRYPT or DECRYPT does. -/

namespace Sys2Proof.Machine

/-- The last part of R144: the command is accepted and its first step will be U_LOAD. -/
def start (d : Bool) (s : State) : State :=
  { s with dir := d, adpos := 0, mpos := 0, rc := 0, phase := Phase.load, statusBusy := true }

/-- The checks of a legal command in the order of R144; the first that fails gives the code (R168). -/
def checkAndStart (d : Bool) (s : State) : State :=
  if ¬ rangeOK d s then refuse errRange s
  else if ¬ overlapOK d s then refuse errOverlap s
  else if ¬ accessOK d s then refuse errAccess s
  else start d s

/-- HostWrite(CMD, w) with a legal word: R144 while BUSY = 0, R31 while BUSY = 1 (log 13). -/
def commandWrite (d : Bool) (s : State) : State :=
  if s.statusBusy then noteWbusy s else checkAndStart d (clearResult s)

/-- ENCRYPT (R142): acceptance with DIR = 0; the steps follow one by one from PHASE. -/
def execEncrypt (s : State) : Result := .next (commandWrite false s)

/-- DECRYPT (R143): acceptance with DIR = 1. -/
def execDecrypt (s : State) : Result := .next (commandWrite true s)

end Sys2Proof.Machine
end

