-- ==== Sys2Proof/Machine/Finalize.lean ====
section
/-! DEFINITION. 44_finalize_uops: U_FINR, U_TAGOUT, U_TAGCHK, U_WIPE, U_CLEAR. -/

namespace Sys2Proof.Machine

/-- U_FINR (R130): X0 is the block of AD_LEN, X1 that of MSG_LEN. -/
def execUFinr (s : State) : Result :=
  if s.adLen < 2 ^ 125 ∧ s.msgLen < 2 ^ 125 then
    .next (finishRound Phase.tag
      { s with lanes := update s.lanes (lenBlock s.adLen) (lenBlock s.msgLen) })
  else .fault .lengthNotBelow2Pow125

/-- U_TAGOUT (R131). -/
def execUTagout (s : State) : Result :=
  writeThen s s.tagAddr (blockBytes (tagOf s.lanes)) fun t =>
  .next { t with phase := Phase.clear }

/-- U_TAGCHK (R132). -/
def execUTagchk (s : State) : Result :=
  readThen s s.tagAddr Config.tagLen fun t' =>
  if tagDiff (tagOf s.lanes) (blockOfBytes t') ≠ 0 then
    .next { raiseAuthFail s with phase := Phase.wipe }
  else .next { s with phase := Phase.clear }

/-- U_WIPE (R134): MSG_LEN bytes 0xAA from DST_ADDR upward. -/
def execUWipe (s : State) : Result :=
  writeThen s s.dstAddr (List.replicate s.msgLen wipeByte) fun t =>
  .next { t with phase := Phase.clear }

/-- U_CLEAR (R135): CODE and WBUSY keep their values. -/
def execUClear (s : State) : Result :=
  .next { s with
    lanes := Lanes.zero, rc := 0, adpos := 0, mpos := 0, dir := false
    statusBusy := false, statusDone := true, phase := Phase.idle }

end Sys2Proof.Machine
end

