-- ==== Sys2Proof/Machine/Initialize.lean ====
section
/-! DEFINITION. 41_init_uops: U_LOAD, U_INITR. -/

namespace Sys2Proof.Machine

/-- U_LOAD (R110). -/
def execULoad (s : State) : Result :=
  readThen s s.keyAddr Config.keyLen fun key =>
  readThen s s.nonceAddr Config.nonceLen fun nonce =>
  .next { s with lanes := initLanes key nonce, rc := 0, phase := Phase.initr }

/-- U_INITR (R111). -/
def execUInitr (s : State) : Result :=
  .next (finishRound (afterInit s) { s with lanes := update s.lanes z0 z1 })

end Sys2Proof.Machine
end

