-- ==== Sys2Proof/Machine/Message.lean ====
section
/-! DEFINITION. 43_message_uops: U_ENCFULL, U_ENCPART, U_DECFULL, U_DECPART. In each, the reads come
first, then the write, then the lane update from the lanes of the start of the step. -/

namespace Sys2Proof.Machine

/-- U_ENCFULL (R120): the plaintext `m` is absorbed. -/
def execUEncfull (s : State) : Result :=
  readThen s (srcChunkAddr s) 32 fun m =>
  writeThen s (dstChunkAddr s) (xorBytes (keystream s.lanes) m) fun t =>
  .next { t with
    lanes := absorb s.lanes m, mpos := s.mpos + 32, phase := afterMSG s (s.mpos + 32) }

/-- U_ENCPART (R121): only `r` ciphertext bytes are emitted. -/
def execUEncpart (s : State) : Result :=
  partialThen s.msgLen s.mpos fun r =>
  readThen s (srcChunkAddr s) r fun b =>
  writeThen s (dstChunkAddr s) ((xorBytes (keystream s.lanes) (pad32 b)).take r) fun t =>
  .next { t with
    lanes := absorb s.lanes (pad32 b), mpos := s.msgLen, phase := Phase.finr }

/-- U_DECFULL (R122): the recovered plaintext is absorbed. -/
def execUDecfull (s : State) : Result :=
  readThen s (srcChunkAddr s) 32 fun c =>
  writeThen s (dstChunkAddr s) (xorBytes (keystream s.lanes) c) fun t =>
  .next { t with
    lanes := absorb s.lanes (xorBytes (keystream s.lanes) c), mpos := s.mpos + 32
    phase := afterMSG s (s.mpos + 32) }

/-- The `r` plaintext bytes of a partial chunk: the head of the intermediate `Mi` (R123). -/
def decTail (S : Lanes) (r : Nat) (c : Bytes) : Bytes :=
  (xorBytes (keystream S) (pad32 c)).take r

/-- U_DECPART (R123): the zero-padded recovered plaintext `Mz` is absorbed, never `Mi`. -/
def execUDecpart (s : State) : Result :=
  partialThen s.msgLen s.mpos fun r =>
  readThen s (srcChunkAddr s) r fun b =>
  writeThen s (dstChunkAddr s) (decTail s.lanes r b) fun t =>
  .next { t with
    lanes := absorb s.lanes (pad32 (decTail s.lanes r b)), mpos := s.msgLen
    phase := Phase.finr }

end Sys2Proof.Machine
end

