-- ==== Sys2Proof/Machine/Dispatch.lean ====
section
/-! DEFINITION. One arm per instruction. -/

namespace Sys2Proof.Machine

def exec (i : Instr) (s : State) : Host.Outcome State Fault Refusal :=
  match i with
  | .encrypt => Sys2Proof.Machine.execEncrypt s
  | .decrypt => Sys2Proof.Machine.execDecrypt s
  | .uLoad => Sys2Proof.Machine.execULoad s
  | .uInitr => Sys2Proof.Machine.execUInitr s
  | .uAdfull => Sys2Proof.Machine.execUAdfull s
  | .uAdpart => Sys2Proof.Machine.execUAdpart s
  | .uEncfull => Sys2Proof.Machine.execUEncfull s
  | .uEncpart => Sys2Proof.Machine.execUEncpart s
  | .uDecfull => Sys2Proof.Machine.execUDecfull s
  | .uDecpart => Sys2Proof.Machine.execUDecpart s
  | .uFinr => Sys2Proof.Machine.execUFinr s
  | .uTagout => Sys2Proof.Machine.execUTagout s
  | .uTagchk => Sys2Proof.Machine.execUTagchk s
  | .uWipe => Sys2Proof.Machine.execUWipe s
  | .uClear => Sys2Proof.Machine.execUClear s

end Sys2Proof.Machine
end

