-- ==== Sys2Proof/Machine/Sequencer.lean ====
section
/-! DEFINITION. The two agents' moves: a core step (45_commands R150), the host port (10_state R30 to R32),
the host's memory accesses and the reset input. -/

namespace Sys2Proof.Machine

/-- One turn of the core: while BUSY = 1 it decodes USEL and performs that micro-operation; while
BUSY = 0 it does nothing (R20, R150; log 5). -/
def coreStep (s : State) : Result :=
  if s.statusBusy then
    match decodeUsel (usel s) with
    | .ok i => exec i s
    | .error _ => .fault .unreachablePhase
  else .next s

/-- A descriptor register takes the low AW bits of the value; rn outside 2 to 9 changes nothing (R30). -/
def writeDescriptor (rn : BitVec 4) (v : Nat) (s : State) : State :=
  let x := v % 2 ^ s.platform.aw
  match rn.toNat with
  | 2 => { s with keyAddr := x }
  | 3 => { s with nonceAddr := x }
  | 4 => { s with adAddr := x }
  | 5 => { s with adLen := x }
  | 6 => { s with srcAddr := x }
  | 7 => { s with dstAddr := x }
  | 8 => { s with msgLen := x }
  | 9 => { s with tagAddr := x }
  | _ => s

/-- A write to CMD while BUSY = 0: a legal word runs its command, any other is refused (R73, R144). -/
def cmdWrite (w : BitVec 32) (s : State) : Result :=
  match decodeCmd w with
  | .ok i => exec i s
  | .error _ => .next (refuse errOpcode (clearResult s))

/-- HostWrite(rn, v) (R30, R31). -/
def hostWrite (rn : BitVec 4) (v : Nat) (s : State) : Result :=
  if s.statusBusy then .next (noteWbusy s)
  else if rn = 0 then cmdWrite (BitVec.ofNat 32 v) s
  else .next (writeDescriptor rn v s)

/-- HostRead(rn) (R32). -/
def hostRead (rn : BitVec 4) (s : State) : Nat :=
  match rn.toNat with
  | 1 => (statusWord s).toNat
  | 2 => s.keyAddr
  | 3 => s.nonceAddr
  | 4 => s.adAddr
  | 5 => s.adLen
  | 6 => s.srcAddr
  | 7 => s.dstAddr
  | 8 => s.msgLen
  | 9 => s.tagAddr
  | 10 => paramsWord.toNat
  | _ => 0

/-- The stretch of `n` bytes at `a` touches a region of the command that DIR names (20_memory R60). -/
def touchesBorrowed (s : State) (a n : Nat) : Bool :=
  decide (∃ r ∈ regions s.dir s, overlap a n r.addr r.len)

/-- The host's memory move on `n` bytes at `a`, which it has while BUSY = 0 only (30_encoding R85, 45_commands
R150, 20_memory R60; log 6). DESIGN CHOICE, log 20: MemOK does not bind the host, for which every address
below 2^AW holds memory. -/
def hostMemory (s : State) (a n : Nat) (move : Result) : Result :=
  if s.statusBusy then
    .refused (if touchesBorrowed s a n then .borrowedRegion else .memoryWhileBusy)
  else move

/-- The host stores bytes in memory (30_encoding R85 `mem`); MemOK does not bind it (log 20). -/
def hostStore (a : Nat) (bs : Bytes) (s : State) : Result :=
  hostMemory s a bs.length (writeThen s a bs fun t => .next t)

/-- The host reads bytes of memory (45_commands R150); MemOK does not bind it (log 20). DESIGN CHOICE, log 21:
the read is allowed everywhere, also of DST after CODE = 1, where it finds 0xAA (93_implementation_defined
U4), and of DST and TAG after a reset has cut a command short. -/
def hostLoad (a n : Nat) (s : State) : Result :=
  hostMemory s a n (readThen s a n fun b => .next { s with seen := .mem a b :: s.seen })

/-- The reset input: every piece of the block's state takes its reset value; memory is not touched
(70_reset_and_hazards R180, R182), nor the platform and the host (log 15). -/
def resetInput (s : State) : State :=
  { State.reset with mem := s.mem, platform := s.platform, host := s.host, seen := s.seen }

/-- The host's next action is taken; the argument state has it removed from the list already. -/
def hostTurn (act : HostAction) (s : State) : Result :=
  match act with
  | .write rn v => hostWrite rn v s
  | .read rn => .next { s with seen := .reg rn (hostRead rn s) :: s.seen }
  | .store a bs => hostStore a bs s
  | .load a n => hostLoad a n s
  | .run => if s.statusBusy then coreStep { s with host := .run :: s.host } else .next s
  | .step 0 => .next s
  | .step 1 => coreStep s
  | .step (n + 2) => coreStep { s with host := .step (n + 1) :: s.host }
  | .reset => .next (resetInput s)

/-- One turn of the machine: the host's next action, or the core's turn when the host has none left
(log 4). -/
def turn (s : State) : Result :=
  match s.host with
  | [] => coreStep s
  | act :: rest => hostTurn act { s with host := rest }

/-- The cursors and lengths under which the selector of a phase with a buffer has the given FULL bit: kept
where they already give it, else one chunk (or one byte) at the start of the buffer (log 16). -/
def withRemaining (full : Bool) (pos len : Nat) : Nat × Nat :=
  if full then if 32 ≤ len - pos then (pos, len) else (0, 32)
  else if pos < len ∧ len - pos ≤ 31 then (pos, len) else (0, 1)

/-- The state whose selector is `w`: the sequencing registers say so, a command runs, and the core has
the next turn (log 16). -/
def selectUsel (w : BitVec 6) (s : State) : State :=
  let phase := w.extractLsb' 2 4
  let full := w.getLsbD 0
  let t := { s with
    phase := phase, dir := w.getLsbD 1, statusBusy := true, host := .step 1 :: s.host }
  if phase = Phase.ad then
    { t with adpos := (withRemaining full s.adpos s.adLen).1
             adLen := (withRemaining full s.adpos s.adLen).2 }
  else if phase = Phase.msg then
    { t with mpos := (withRemaining full s.mpos s.msgLen).1
             msgLen := (withRemaining full s.mpos s.msgLen).2 }
  else t

/-- The word placed where the next turn takes it: a command word in a pending CMD write, a selector in
the sequencing registers (log 16). -/
def placeWord (s : State) (nbits w : Nat) : State :=
  match tableWord nbits w with
  | some (.cmd c) => { s with host := .write 0 c.toNat :: s.host }
  | some (.usel u) => selectUsel u s
  | none => s

end Sys2Proof.Machine
end

