-- ==== Sys2Proof/Machine/Step.lean ====
section
/-! DEFINITION. The step of the machine. -/

namespace Sys2Proof.Machine

/-- One step: one turn of the host or of the core. -/
def step (s : State) : Host.Outcome State Fault Refusal := turn s

/-- The state in which the next step runs the instruction of the given table word (log 16). -/
def State.withFetchWord (s : State) (nbits w : Nat) : State := placeWord s nbits w

end Sys2Proof.Machine
end

