-- ==== Sys2Proof/Machine/Whole.lean ====
section
/-! DEFINITION. What a whole command computes: the pure functions of R112, R118, R125, R137, R151, R152,
the S-box formula of R92, the step
count of R156, and runs of the machine. -/

namespace Sys2Proof.Machine

/-- `n` Updates with the same two Blocks. -/
def updates : Nat → Lanes → Block → Block → Lanes
  | 0, S, _, _ => S
  | n + 1, S, x0, x1 => updates n (update S x0 x1) x0 x1

/-- Init(key, nonce) (41_init_uops R112). -/
def initState (key nonce : Bytes) : Lanes :=
  updates Config.rounds (initLanes key nonce) z0 z1

/-- The string cut into pieces of 32 bytes, the last of 1 to 32; `n` bounds the number of pieces. -/
def piecesUpTo : Nat → Bytes → List Bytes
  | 0, _ => []
  | n + 1, b => if b = [] then [] else b.take 32 :: piecesUpTo n (b.drop 32)

/-- The chunks of a byte string: full ones of 32 bytes, then what is left over, if anything. -/
def pieces (b : Bytes) : List Bytes := piecesUpTo b.length b

/-- AbsorbAD(S, ad) (42_absorb_uops R118). -/
def absorbAD (S : Lanes) (ad : Bytes) : Lanes :=
  (pieces ad).foldl (fun S c => absorb S (pad32 c)) S

/-- EncMsg over the chunks of the message (R125). -/
def encPieces : Lanes → List Bytes → Lanes × Bytes
  | S, [] => (S, [])
  | S, m :: ms =>
    let rest := encPieces (absorb S (pad32 m)) ms
    (rest.1, (xorBytes (keystream S) (pad32 m)).take m.length ++ rest.2)

/-- EncMsg(S, m) (R125). -/
def encMsg (S : Lanes) (m : Bytes) : Lanes × Bytes := encPieces S (pieces m)

/-- DecMsg over the chunks of the ciphertext (R125). -/
def decPieces : Lanes → List Bytes → Lanes × Bytes
  | S, [] => (S, [])
  | S, c :: cs =>
    let m := (xorBytes (keystream S) (pad32 c)).take c.length
    let rest := decPieces (absorb S (pad32 m)) cs
    (rest.1, m ++ rest.2)

/-- DecMsg(S, c) (R125). -/
def decMsg (S : Lanes) (c : Bytes) : Lanes × Bytes := decPieces S (pieces c)

/-- Finalize(S, adlen, msglen) (44_finalize_uops R137). -/
def finalize (S : Lanes) (adLen msgLen : Nat) : Block :=
  tagOf (updates Config.rounds S (lenBlock adLen) (lenBlock msgLen))

/-- RoccaEncrypt(key, nonce, ad, m): ciphertext and tag (45_commands R151). -/
def roccaEncrypt (key nonce ad m : Bytes) : Bytes × Block :=
  let out := encMsg (absorbAD (initState key nonce) ad) m
  (out.2, finalize out.1 ad.length m.length)

/-- RoccaDecrypt(key, nonce, ad, c, tag): whether the tag verifies, and the output (R152). -/
def roccaDecrypt (key nonce ad c : Bytes) (tag : Block) : Bool × Bytes :=
  let out := decMsg (absorbAD (initState key nonce) ad) c
  if tagDiff (finalize out.1 ad.length c.length) tag = 0 then (true, out.2)
  else (false, List.replicate c.length wipeByte)

/-- The steps of an accepted command without the U_WIPE step (R156 with w = 0). -/
def commandSteps (adLen msgLen : Nat) : Nat :=
  1 + 20 + (adLen + 31) / 32 + (msgLen + 31) / 32 + 20 + 1 + 1

/-- The product of the first `n` bits of `b` with `a` in GF(2^8), the polynomial of R92. -/
def gfMulBits : Nat → Byte → Byte → Byte
  | 0, _, _ => 0
  | n + 1, a, b => (if b.getLsbD 0 then a else 0) ^^^ gfMulBits n (mul2 a) (b >>> 1)

/-- Multiplication in GF(2^8) modulo x^8 + x^4 + x^3 + x + 1 (R92). -/
def gfMul (a b : Byte) : Byte := gfMulBits 8 a b

/-- The affine map of R92 that gives the S-box from the inverse. -/
def sboxAffine (y : Byte) : Byte :=
  y ^^^ y.rotateLeft 1 ^^^ y.rotateLeft 2 ^^^ y.rotateLeft 3 ^^^ y.rotateLeft 4 ^^^ 0x63#8

/-- `n` turns of the core, stopping at the first fault or refusal (R150: a run of a command). -/
def coreSteps : Nat → State → Result
  | 0, s => .next s
  | n + 1, s =>
    match coreStep s with
    | .next t => coreSteps n t
    | .fault f => .fault f
    | .refused r => .refused r

end Sys2Proof.Machine
end

