-- ==== Sys2Proof/Safety.lean ====
section
/-! DEFINITION. The invariant of the machine (10_state R42, with the widths, the memory's form and the
acceptance checks it rests on), and the parts of a state that frames speak of. -/

namespace Sys2Proof.Machine

/-- R42 (a). -/
def State.busyIffPhase (s : State) : Prop := s.statusBusy = true ↔ s.phase ≠ Phase.idle
deriving Decidable

/-- R42 (b). -/
def State.idleIsClear (s : State) : Prop :=
  s.phase = Phase.idle →
    s.lanes = Lanes.zero ∧ s.dir = false ∧ s.rc = 0 ∧ s.adpos = 0 ∧ s.mpos = 0
deriving Decidable

/-- R42 (c). -/
def State.roundCounted (s : State) : Prop :=
  s.rc ≤ 19 ∧ (s.rc ≠ 0 → s.phase = Phase.initr ∨ s.phase = Phase.finr)
deriving Decidable

/-- R42 (d), and the cursors' values before their phase begins (45_commands R144). -/
def State.cursorsPlaced (s : State) : Prop :=
  (s.phase = Phase.load ∨ s.phase = Phase.initr → s.adpos = 0 ∧ s.mpos = 0) ∧
  (s.phase = Phase.ad → s.adpos < s.adLen ∧ s.adpos % 32 = 0 ∧ s.mpos = 0) ∧
  (s.phase = Phase.msg → s.adpos = s.adLen ∧ s.mpos < s.msgLen ∧ s.mpos % 32 = 0) ∧
  (s.phase = Phase.finr ∨ s.phase = Phase.tag ∨ s.phase = Phase.wipe ∨ s.phase = Phase.clear →
    s.adpos = s.adLen ∧ s.mpos = s.msgLen)
deriving Decidable

/-- R42 (e), the codes of 60_exceptions R160, and when CODE is not 0 (45_commands R144, R146). -/
def State.codeExplained (s : State) : Prop :=
  s.statusCode ∈ ([0, 1, 2, 4, 5, 6] : List (BitVec 4)) ∧
  (s.phase = Phase.wipe → s.dir = true ∧ s.statusCode = 1) ∧
  (s.phase = Phase.clear → s.statusCode = 0 ∨ (s.dir = true ∧ s.statusCode = 1)) ∧
  (s.statusBusy = true → s.phase ≠ Phase.wipe → s.phase ≠ Phase.clear → s.statusCode = 0) ∧
  (s.statusBusy = false → s.statusDone = false → s.statusCode = 0)
deriving Decidable

/-- R42 (f). -/
def State.phaseLegal (s : State) : Prop := s.phase ≤ 8
deriving Decidable

/-- 10_state R34: BUSY and DONE are never both 1. -/
def State.busyNotDone (s : State) : Prop := ¬ (s.statusBusy = true ∧ s.statusDone = true)
deriving Decidable

/-- The registers are AW bits wide (10_state R27, R35). -/
def State.registersFit (s : State) : Prop :=
  ∀ v ∈ [s.keyAddr, s.nonceAddr, s.adAddr, s.adLen, s.srcAddr, s.dstAddr, s.msgLen, s.tagAddr,
      s.adpos, s.mpos], v < 2 ^ s.platform.aw
deriving Decidable

/-- Memory is in canonical form and holds addresses below 2^AW only (20_memory R50). -/
def State.memoryFits (s : State) : Prop :=
  s.mem.wf ∧ ∀ c ∈ s.mem, c.1 < 2 ^ s.platform.aw
deriving Decidable

/-- The three checks of 45_commands R144. -/
def State.accepts (d : Bool) (s : State) : Prop := rangeOK d s ∧ overlapOK d s ∧ accessOK d s
deriving Decidable

/-- The invariant. -/
def State.Inv (s : State) : Prop :=
  s.busyIffPhase ∧ s.idleIsClear ∧ s.roundCounted ∧ s.cursorsPlaced ∧ s.codeExplained ∧
  s.phaseLegal ∧ s.busyNotDone ∧ s.registersFit ∧ s.memoryFits ∧
  (s.statusBusy = true → s.accepts s.dir)
deriving Decidable

/-- The eight descriptor registers (10_state R35). -/
def State.descriptors (s : State) : List Nat :=
  [s.keyAddr, s.nonceAddr, s.adAddr, s.adLen, s.srcAddr, s.dstAddr, s.msgLen, s.tagAddr]

/-- The sequencing state, which "plays the program counter's part" (10_state R23). -/
def State.sequencing (s : State) : Phase × Bool × BitVec 5 × Nat × Nat :=
  (s.phase, s.dir, s.rc, s.adpos, s.mpos)

/-- The STATUS flags other than PHASE (10_state R37). -/
def State.flags (s : State) : Bool × Bool × Bool × BitVec 4 :=
  (s.statusBusy, s.statusDone, s.statusWbusy, s.statusCode)

/-- What is around the block: the platform, the host's coming actions, and what it has read. -/
def State.outside (s : State) : Platform × List HostAction × List Seen :=
  (s.platform, s.host, s.seen)

/-- An address lies in the region of `n` bytes at `a`. -/
abbrev inRegion (x a n : Nat) : Prop := a ≤ x ∧ x < a + n

/-- Every piece of the block's own state at the reset value of the table in 10_state R40. -/
def State.atReset (s : State) : Prop :=
  s.lanes = ⟨0, 0, 0, 0, 0, 0, 0, 0⟩ ∧ s.phase = 0 ∧ s.dir = false ∧ s.rc = 0 ∧ s.adpos = 0 ∧
  s.mpos = 0 ∧ s.statusBusy = false ∧ s.statusDone = false ∧ s.statusWbusy = false ∧
  s.statusCode = 0 ∧ s.descriptors = [0, 0, 0, 0, 0, 0, 0, 0]

/-- The memory reads of a micro-operation, address and length (20_memory R56). A CMD write reads no
memory (45_commands R144). -/
def reads : Instr → State → List (Nat × Nat)
  | .uLoad, s => [(s.keyAddr, 32), (s.nonceAddr, 16)]
  | .uAdfull, s => [(adChunkAddr s, 32)]
  | .uAdpart, s => [(adChunkAddr s, s.adLen - s.adpos)]
  | .uEncfull, s | .uDecfull, s => [(srcChunkAddr s, 32)]
  | .uEncpart, s | .uDecpart, s => [(srcChunkAddr s, s.msgLen - s.mpos)]
  | .uTagchk, s => [(s.tagAddr, 16)]
  | .encrypt, _ | .decrypt, _ | .uInitr, _ | .uFinr, _ | .uTagout, _ | .uWipe, _ | .uClear, _ => []

/-- The memory writes of a micro-operation, address and length (20_memory R56). -/
def writes : Instr → State → List (Nat × Nat)
  | .uEncfull, s | .uDecfull, s => [(dstChunkAddr s, 32)]
  | .uEncpart, s | .uDecpart, s => [(dstChunkAddr s, s.msgLen - s.mpos)]
  | .uTagout, s => [(s.tagAddr, 16)]
  | .uWipe, s => [(s.dstAddr, s.msgLen)]
  | .encrypt, _ | .decrypt, _ | .uLoad, _ | .uInitr, _ | .uAdfull, _ | .uAdpart, _ | .uFinr, _
  | .uTagchk, _ | .uClear, _ => []

/-- The thirteen micro-operations, in table order (30_encoding R78). -/
def microOps : List Instr :=
  [.uLoad, .uInitr, .uAdfull, .uAdpart, .uEncfull, .uEncpart, .uDecfull, .uDecpart, .uFinr,
   .uTagout, .uTagchk, .uWipe, .uClear]

end Sys2Proof.Machine
end

