-- ==== Sys2Proof/Certificates/Slice0/Obligations.lean ====
section
/-! DEFINITION. The statements for the provers, in the order of OBLIGATIONS.json. -/

open Sys2Proof Sys2Proof.Machine

/-! ## Reset and the invariant -/

/-- 70_reset_and_hazards R181: the state after reset in words. That the idle core's turn leaves the state
as it is, is the model's reading of "takes no step" (log 5). -/
def Obligations.ResetLeavesTheStatedValues : Prop :=
  State.reset.atReset ∧ hostRead 1 State.reset = 0x00000000 ∧
  hostRead 10 State.reset = 0x00101020 ∧ coreStep State.reset = .next State.reset

/-- R180, R182: reset at any time gives every piece of the block its reset value, whatever ran; memory is
not touched. -/
def Obligations.ResetInputResetsAllButMemory : Prop :=
  ∀ (s : State) (rest : List HostAction), s.host = .reset :: rest →
    ∃ t, step s = .next t ∧ t.atReset ∧ t.mem = s.mem ∧ t.outside = (s.platform, rest, s.seen)

/-- The invariant of 10_state R42 holds at reset. -/
def Obligations.ResetMeetsTheInvariant : Prop := State.reset.Inv

/-- 10_state R42: every step of the machine, of the core or of the host, keeps the invariant. -/
def Obligations.StepKeepsTheInvariant : Prop :=
  ∀ s t : State, s.Inv → step s = .next t → t.Inv

/-- 20_memory R66: where the invariant holds, a core step never stops. -/
def Obligations.CoreStepNeverStops : Prop :=
  ∀ s : State, s.Inv → ∃ t, coreStep s = .next t

/-! ## Decoding and the step -/

/-- 30_encoding R77: the decode table, and exactly one row matches every selector that can occur. -/
def Obligations.SelectorPicksTheTableRow : Prop :=
  ∀ s : State, s.Inv → s.statusBusy = true →
    (uselRows.filter fun r => r.selects (usel s)).length = 1 ∧
    (s.phase = 1 → decodeUsel (usel s) = .ok .uLoad) ∧
    (s.phase = 2 → decodeUsel (usel s) = .ok .uInitr) ∧
    (s.phase = 3 → decodeUsel (usel s) =
      .ok (if 32 ≤ s.adLen - s.adpos then .uAdfull else .uAdpart)) ∧
    (s.phase = 4 → decodeUsel (usel s) =
      .ok (if 32 ≤ s.msgLen - s.mpos then (if s.dir then .uDecfull else .uEncfull)
        else (if s.dir then .uDecpart else .uEncpart))) ∧
    (s.phase = 5 → decodeUsel (usel s) = .ok .uFinr) ∧
    (s.phase = 6 → decodeUsel (usel s) = .ok (if s.dir then .uTagchk else .uTagout)) ∧
    (s.phase = 7 → decodeUsel (usel s) = .ok .uWipe) ∧
    (s.phase = 8 → decodeUsel (usel s) = .ok .uClear)

/-- 30_encoding R79: a selector of PHASE 0 or 9 to 15 is no micro-operation and decodes to the fault
UnreachablePhase; no running command of the invariant has one, and a busy core that had one would stop. -/
def Obligations.UnmatchedSelectorIsUnreachable : Prop :=
  (∀ s : State, s.phase = 0 ∨ 9 ≤ s.phase →
    decodeUsel (usel s) = .error .unreachablePhase ∧
    (s.statusBusy = true → coreStep s = .fault .unreachablePhase)) ∧
  (∀ s : State, s.Inv → s.statusBusy = true → ¬ (s.phase = 0 ∨ 9 ≤ s.phase))

/-- 30_encoding R87: no two rows of one format both match a word; the decoder reads back every word the
encoder writes, for every filling of the don't-care bits, and takes no other word. -/
def Obligations.DecodeEncodeAgree : Prop :=
  (∀ w : BitVec 32, (cmdRows.filter fun r => r.selects w).length ≤ 1) ∧
  (∀ w : BitVec 6, (uselRows.filter fun r => r.selects w).length ≤ 1) ∧
  (∀ (i : Instr) (dir full : Bool), i.wellFormed = true → decode (encode i dir full) = .ok i) ∧
  (∀ (e : Encoded) (i : Instr), decode e = .ok i → ∃ dir full, encode i dir full = e)

/-- Words written out from 30_encoding R72 and R77, with don't-care bits of both values. -/
def Obligations.WrittenOutWordsDecode : Prop :=
  decodeTableWord 32 0b00000000000000000000000000000001 = some .encrypt ∧
  decodeTableWord 32 0b00000000000000000000000000000010 = some .decrypt ∧
  decodeTableWord 8 0b000100 = some .uLoad ∧ decodeTableWord 8 0b001010 = some .uInitr ∧
  decodeTableWord 8 0b001111 = some .uAdfull ∧ decodeTableWord 8 0b001100 = some .uAdpart ∧
  decodeTableWord 8 0b010001 = some .uEncfull ∧ decodeTableWord 8 0b010010 = some .uDecpart ∧
  decodeTableWord 8 0b011010 = some .uTagchk ∧ decodeTableWord 8 0b100010 = some .uClear ∧
  decodeTableWord 8 0b000000 = none ∧ decodeTableWord 8 0b100100 = none ∧
  decodeTableWord 32 0x00000101 = none

/-- A step runs the selected micro-operation: when the host has no action left, or gives the core its
turn (30_encoding R85), the step is that micro-operation's meaning. -/
def Obligations.StepRunsTheSelectedMicroOp : Prop :=
  ∀ (s : State) (i : Instr), s.statusBusy = true → decodeUsel (usel s) = .ok i →
    (s.host = [] → step s = exec i s) ∧
    (∀ rest, s.host = .step 1 :: rest → step s = exec i { s with host := rest }) ∧
    (∀ n rest, s.host = .step (n + 2) :: rest →
      step s = exec i { s with host := .step (n + 1) :: rest }) ∧
    (∀ rest, s.host = .run :: rest → step s = exec i s)

/-- A step runs the written command: a CMD write that decodes is that command's meaning. -/
def Obligations.StepRunsTheWrittenCommand : Prop :=
  ∀ (s : State) (v : Nat) (i : Instr) (rest : List HostAction),
    s.host = .write 0 v :: rest → decodeCmd (BitVec.ofNat 32 v) = .ok i →
    step s = exec i { s with host := rest }

/-! ## The host port -/

/-- 30_encoding R73: every CMD word but the two commands is refused with CODE 2 while BUSY = 0, and
nothing but STATUS changes. -/
def Obligations.IllegalCommandWordRefused : Prop :=
  ∀ (s : State) (v : Nat), s.statusBusy = false → v % 2 ^ 32 ≠ 1 → v % 2 ^ 32 ≠ 2 →
    hostWrite 0 v s =
      .next { s with statusDone := true, statusCode := 2, statusWbusy := false }

/-- 10_state R30: while BUSY = 0 a write to rn 2 to 9 sets that register to the low AW bits of the value
and reads back so; every other register reads as before; rn 1 and 10 to 15 have no effect; nothing else
changes. A write to rn 0 is command acceptance with the low 32 bits. -/
def Obligations.IdleHostWriteSetsOneRegister : Prop :=
  ∀ (s : State) (rn : BitVec 4) (v : Nat), s.statusBusy = false →
    (rn = 0 → hostWrite rn v s = cmdWrite (BitVec.ofNat 32 (v % 2 ^ 32)) s) ∧
    (rn = 1 ∨ 10 ≤ rn → hostWrite rn v s = .next s) ∧
    (2 ≤ rn → rn ≤ 9 → ∃ t, hostWrite rn v s = .next t ∧
      hostRead rn t = v % 2 ^ s.platform.aw ∧
      (∀ q : BitVec 4, q ≠ rn → hostRead q t = hostRead q s) ∧
      t.lanes = s.lanes ∧ t.sequencing = s.sequencing ∧ t.flags = s.flags ∧ t.mem = s.mem ∧
      t.outside = s.outside)

/-- 10_state R31: while BUSY = 1 a write to any rn changes nothing but WBUSY. -/
def Obligations.BusyHostWriteOnlySetsWbusy : Prop :=
  ∀ (s : State) (rn : BitVec 4) (v : Nat), s.statusBusy = true →
    hostWrite rn v s = .next { s with statusWbusy := true }

/-- 10_state R32, R33, R36: what each register number reads, and that a read changes nothing but what the
host has seen. -/
def Obligations.HostReadReturnsTheRegister : Prop :=
  ∀ s : State,
    hostRead 0 s = 0 ∧ hostRead 1 s = (statusWord s).toNat ∧
    [2, 3, 4, 5, 6, 7, 8, 9].map (fun rn => hostRead rn s) = s.descriptors ∧
    hostRead 10 s = 0x00101020 ∧ (∀ rn : BitVec 4, 11 ≤ rn → hostRead rn s = 0) ∧
    (∀ (rn : BitVec 4) (rest : List HostAction), s.host = .read rn :: rest →
      step s = .next { s with host := rest, seen := .reg rn (hostRead rn s) :: s.seen })

/-- 10_state R34: the layout of STATUS, as the number the host reads. -/
def Obligations.StatusWordLayout : Prop :=
  ∀ s : State, (statusWord s).toNat =
    s.statusBusy.toNat + 2 * s.statusDone.toNat + 4 * s.statusWbusy.toNat +
      16 * s.statusCode.toNat + 256 * s.phase.toNat

/-- 20_memory R60, 30_encoding R85, 45_commands R150: while BUSY = 1 the host has no memory move, on a borrowed
region or elsewhere; while BUSY = 0 it reads and writes memory. The two refusals (log 6), and that MemOK does
not bind the host (log 20) and no address is closed to its reads (log 21), are the model's choice. -/
def Obligations.HostMemoryMoves : Prop :=
  ∀ (s : State) (a : Nat) (bs : Bytes) (n : Nat),
    (s.statusBusy = true →
      ((∃ r ∈ regions s.dir s, overlap a bs.length r.addr r.len) →
        hostStore a bs s = .refused .borrowedRegion) ∧
      ((∃ r ∈ regions s.dir s, overlap a n r.addr r.len) →
        hostLoad a n s = .refused .borrowedRegion) ∧
      ((∀ r ∈ regions s.dir s, ¬ overlap a bs.length r.addr r.len) →
        hostStore a bs s = .refused .memoryWhileBusy) ∧
      ((∀ r ∈ regions s.dir s, ¬ overlap a n r.addr r.len) →
        hostLoad a n s = .refused .memoryWhileBusy)) ∧
    (s.statusBusy = false → s.mem.wf → a + bs.length ≤ 2 ^ s.platform.aw →
      ∃ t, hostStore a bs s = .next t ∧ t = { s with mem := t.mem } ∧
        t.mem.bytesAt a bs.length = bs ∧
        ∀ x, ¬ inRegion x a bs.length → t.mem.byteAt x = s.mem.byteAt x) ∧
    (s.statusBusy = false → a + n ≤ 2 ^ s.platform.aw →
      hostLoad a n s = .next { s with seen := .mem a (s.mem.bytesAt a n) :: s.seen })

/-- 10_state R22: only micro-operations read and write lanes: a host action that is neither the core's
turn nor reset leaves them, and what it does else and what the host sees do not depend on them. -/
def Obligations.HostNeverReachesTheLanes : Prop :=
  ∀ (act : HostAction) (s t : State) (L : Lanes),
    act ≠ .run → (∀ n, act ≠ .step n) → act ≠ .reset → hostTurn act s = .next t →
    t.lanes = s.lanes ∧ hostTurn act { s with lanes := L } = .next { t with lanes := L }

/-! ## Accepting and refusing a command -/

/-- 45_commands R142, R143, R144: an ENCRYPT or a DECRYPT that passes the three checks is accepted: DIR says
which, the cursors and RC are 0, BUSY rises with PHASE at LOAD, and the old result is cleared. -/
def Obligations.LegalCommandIsAccepted : Prop :=
  ∀ s : State, s.statusBusy = false →
    (s.accepts false → exec .encrypt s = .next { s with
      dir := false, adpos := 0, mpos := 0, rc := 0, phase := 1, statusBusy := true
      statusDone := false, statusCode := 0, statusWbusy := false }) ∧
    (s.accepts true → exec .decrypt s = .next { s with
      dir := true, adpos := 0, mpos := 0, rc := 0, phase := 1, statusBusy := true
      statusDone := false, statusCode := 0, statusWbusy := false })

/-- 45_commands R140, 10_state R31: a command written while another runs is dropped, only WBUSY is set; that
the command's meaning covers this write is the model's choice (log 13). -/
def Obligations.CommandWhileBusyIsDropped : Prop :=
  ∀ s : State, s.statusBusy = true →
    exec .encrypt s = .next { s with statusWbusy := true } ∧
    exec .decrypt s = .next { s with statusWbusy := true }

/-- 45_commands R146, 60_exceptions R168: the first failing check gives the code; DONE and CODE are
recorded and nothing else changes (WBUSY is cleared by the CMD write itself). -/
def Obligations.FirstFailingCheckGivesTheCode : Prop :=
  ∀ (d : Bool) (s : State), s.statusBusy = false →
    ∀ c : BitVec 4, (¬ rangeOK d s ∧ c = 4) ∨ (rangeOK d s ∧ ¬ overlapOK d s ∧ c = 5) ∨
      (rangeOK d s ∧ overlapOK d s ∧ ¬ accessOK d s ∧ c = 6) →
    exec (if d then .decrypt else .encrypt) s =
      .next { s with statusDone := true, statusCode := c, statusWbusy := false }

/-- 45_commands R145 and R148 over the regions of R149: the range check and the access check, region by
region; inputs must be readable and outputs writable. -/
def Obligations.RangeAndAccessChecksRegionByRegion : Prop :=
  ∀ (d : Bool) (s : State),
    (rangeOK d s ↔
      s.keyAddr + 32 ≤ 2 ^ s.platform.aw ∧ s.nonceAddr + 16 ≤ 2 ^ s.platform.aw ∧
      (0 < s.adLen → s.adAddr + s.adLen ≤ 2 ^ s.platform.aw) ∧
      (0 < s.msgLen → s.srcAddr + s.msgLen ≤ 2 ^ s.platform.aw) ∧
      (0 < s.msgLen → s.dstAddr + s.msgLen ≤ 2 ^ s.platform.aw) ∧
      s.tagAddr + 16 ≤ 2 ^ s.platform.aw) ∧
    (accessOK d s ↔
      s.platform.memOK s.keyAddr 32 .read = true ∧ s.platform.memOK s.nonceAddr 16 .read = true ∧
      (0 < s.adLen → s.platform.memOK s.adAddr s.adLen .read = true) ∧
      (0 < s.msgLen → s.platform.memOK s.srcAddr s.msgLen .read = true) ∧
      (0 < s.msgLen → s.platform.memOK s.dstAddr s.msgLen .write = true) ∧
      s.platform.memOK s.tagAddr 16 (if d then .read else .write) = true)

/-- 45_commands R147 over the regions of R149: DST clashes with nothing, but for SRC at the same address;
for ENCRYPT, TAG clashes with nothing either. -/
def Obligations.OverlapCheckRegionByRegion : Prop :=
  ∀ (d : Bool) (s : State), overlapOK d s ↔
    ¬ overlap s.dstAddr s.msgLen s.keyAddr 32 ∧ ¬ overlap s.dstAddr s.msgLen s.nonceAddr 16 ∧
    ¬ overlap s.dstAddr s.msgLen s.adAddr s.adLen ∧ ¬ overlap s.dstAddr s.msgLen s.tagAddr 16 ∧
    (s.dstAddr = s.srcAddr ∨ ¬ overlap s.dstAddr s.msgLen s.srcAddr s.msgLen) ∧
    (d = false →
      ¬ overlap s.tagAddr 16 s.keyAddr 32 ∧ ¬ overlap s.tagAddr 16 s.nonceAddr 16 ∧
      ¬ overlap s.tagAddr 16 s.adAddr s.adLen ∧ ¬ overlap s.tagAddr 16 s.srcAddr s.msgLen)

/-! ## The micro-operations: result and frame -/

/-- 41_init_uops R110 with 40_datapath_functions R100: lanes from key and nonce. -/
def Obligations.ULoadFillsTheLanes : Prop :=
  (∀ d f, decodeUsel (uselWord 1 d f) = .ok .uLoad) ∧
  ∀ s : State, s.platform.holds s.keyAddr 32 → s.platform.holds s.nonceAddr 16 →
    let k0 := blockOfBytes (s.mem.bytesAt s.keyAddr 16)
    let k1 := blockOfBytes (s.mem.bytesAt (s.keyAddr + 16) 16)
    let n := blockOfBytes (s.mem.bytesAt s.nonceAddr 16)
    exec .uLoad s = .next { s with
      lanes := ⟨k1, n, 0x428a2f98d728ae227137449123ef65cd#128,
        0xb5c0fbcfec4d3b2fe9b5dba58189dbbc#128, n ^^^ k1, 0#128, k0, 0#128⟩
      rc := 0, phase := 2 }

/-- 41_init_uops R111 with the successor of 30_encoding R81. -/
def Obligations.UInitrRunsOneRound : Prop :=
  (∀ d f, decodeUsel (uselWord 2 d f) = .ok .uInitr) ∧
  ∀ s : State,
    exec .uInitr s = .next { s with
      lanes := update s.lanes 0x428a2f98d728ae227137449123ef65cd#128
        0xb5c0fbcfec4d3b2fe9b5dba58189dbbc#128
      rc := if s.rc = 19 then 0 else s.rc + 1
      phase := if s.rc = 19 then
          (if 0 < s.adLen then 3 else if 0 < s.msgLen then 4 else 5)
        else s.phase }

/-- 42_absorb_uops R115 with the successor of 30_encoding R82: 32 bytes of associated data as two Blocks. -/
def Obligations.UAdfullAbsorbsThirtyTwoBytes : Prop :=
  (∀ d, decodeUsel (uselWord 3 d true) = .ok .uAdfull) ∧
  ∀ s : State, s.platform.holds (s.adAddr + s.adpos) 32 →
    exec .uAdfull s = .next { s with
      lanes := update s.lanes (blockOfBytes (s.mem.bytesAt (s.adAddr + s.adpos) 16))
        (blockOfBytes (s.mem.bytesAt (s.adAddr + s.adpos + 16) 16))
      adpos := s.adpos + 32
      phase := if s.adpos + 32 < s.adLen then 3 else if 0 < s.msgLen then 4 else 5 }

/-- 42_absorb_uops R116: the r bytes left, then zeros, are absorbed; no byte after them is read. -/
def Obligations.UAdpartAbsorbsThePaddedRest : Prop :=
  (∀ d, decodeUsel (uselWord 3 d false) = .ok .uAdpart) ∧
  ∀ s : State, s.adpos < s.adLen → s.adLen - s.adpos ≤ 31 →
    s.platform.holds (s.adAddr + s.adpos) (s.adLen - s.adpos) →
    let p := s.mem.bytesAt (s.adAddr + s.adpos) (s.adLen - s.adpos) ++
      List.replicate (32 - (s.adLen - s.adpos)) 0
    exec .uAdpart s = .next { s with
      lanes := update s.lanes (blockOfBytes (p.take 16)) (blockOfBytes (p.drop 16))
      adpos := s.adLen
      phase := if 0 < s.msgLen then 4 else 5 }

/-- 43_message_uops R120: C0 and C1 are written, the plaintext Blocks are absorbed. -/
def Obligations.UEncfullWritesCiphertext : Prop :=
  decodeUsel (uselWord 4 false true) = .ok .uEncfull ∧
  ∀ s : State, s.mem.wf → s.platform.holds (srcChunkAddr s) 32 →
    s.platform.holds (dstChunkAddr s) 32 →
    let m0 := blockOfBytes (s.mem.bytesAt (srcChunkAddr s) 16)
    let m1 := blockOfBytes (s.mem.bytesAt (srcChunkAddr s + 16) 16)
    ∃ t, exec .uEncfull s = .next t ∧
      t.mem.bytesAt (dstChunkAddr s) 32 =
        blockBytes (aesRound s.lanes.s1 s.lanes.s5 ^^^ m0) ++
        blockBytes (aesRound (s.lanes.s0 ^^^ s.lanes.s4) s.lanes.s2 ^^^ m1) ∧
      (∀ x, ¬ inRegion x (dstChunkAddr s) 32 → t.mem.byteAt x = s.mem.byteAt x) ∧
      t = { s with
        mem := t.mem, lanes := update s.lanes m0 m1, mpos := s.mpos + 32
        phase := if s.mpos + 32 < s.msgLen then 4 else 5 }

/-- 43_message_uops R121: r ciphertext bytes are written, the zero-extended plaintext is absorbed. -/
def Obligations.UEncpartWritesTheRestOnly : Prop :=
  decodeUsel (uselWord 4 false false) = .ok .uEncpart ∧
  ∀ s : State, s.mem.wf → s.mpos < s.msgLen → s.msgLen - s.mpos ≤ 31 →
    s.platform.holds (srcChunkAddr s) (s.msgLen - s.mpos) →
    s.platform.holds (dstChunkAddr s) (s.msgLen - s.mpos) →
    let r := s.msgLen - s.mpos
    let m := s.mem.bytesAt (srcChunkAddr s) r ++ List.replicate (32 - r) 0
    let m0 := blockOfBytes (m.take 16)
    let m1 := blockOfBytes (m.drop 16)
    ∃ t, exec .uEncpart s = .next t ∧
      t.mem.bytesAt (dstChunkAddr s) r =
        (blockBytes (aesRound s.lanes.s1 s.lanes.s5 ^^^ m0) ++
          blockBytes (aesRound (s.lanes.s0 ^^^ s.lanes.s4) s.lanes.s2 ^^^ m1)).take r ∧
      (∀ x, ¬ inRegion x (dstChunkAddr s) r → t.mem.byteAt x = s.mem.byteAt x) ∧
      t = { s with
        mem := t.mem, lanes := update s.lanes m0 m1, mpos := s.msgLen, phase := 5 }

/-- 43_message_uops R122: the plaintext is recovered, written and absorbed. -/
def Obligations.UDecfullWritesPlaintext : Prop :=
  decodeUsel (uselWord 4 true true) = .ok .uDecfull ∧
  ∀ s : State, s.mem.wf → s.platform.holds (srcChunkAddr s) 32 →
    s.platform.holds (dstChunkAddr s) 32 →
    let m0 := aesRound s.lanes.s1 s.lanes.s5 ^^^
      blockOfBytes (s.mem.bytesAt (srcChunkAddr s) 16)
    let m1 := aesRound (s.lanes.s0 ^^^ s.lanes.s4) s.lanes.s2 ^^^
      blockOfBytes (s.mem.bytesAt (srcChunkAddr s + 16) 16)
    ∃ t, exec .uDecfull s = .next t ∧
      t.mem.bytesAt (dstChunkAddr s) 32 = blockBytes m0 ++ blockBytes m1 ∧
      (∀ x, ¬ inRegion x (dstChunkAddr s) 32 → t.mem.byteAt x = s.mem.byteAt x) ∧
      t = { s with
        mem := t.mem, lanes := update s.lanes m0 m1, mpos := s.mpos + 32
        phase := if s.mpos + 32 < s.msgLen then 4 else 5 }

/-- 43_message_uops R123: r plaintext bytes are written, and they, zero-padded, are absorbed: not the
intermediate and not the ciphertext. -/
def Obligations.UDecpartAbsorbsPaddedPlaintext : Prop :=
  decodeUsel (uselWord 4 true false) = .ok .uDecpart ∧
  ∀ s : State, s.mem.wf → s.mpos < s.msgLen → s.msgLen - s.mpos ≤ 31 →
    s.platform.holds (srcChunkAddr s) (s.msgLen - s.mpos) →
    s.platform.holds (dstChunkAddr s) (s.msgLen - s.mpos) →
    let r := s.msgLen - s.mpos
    let c := s.mem.bytesAt (srcChunkAddr s) r ++ List.replicate (32 - r) 0
    let mi := blockBytes (aesRound s.lanes.s1 s.lanes.s5 ^^^ blockOfBytes (c.take 16)) ++
      blockBytes (aesRound (s.lanes.s0 ^^^ s.lanes.s4) s.lanes.s2 ^^^ blockOfBytes (c.drop 16))
    let mz := mi.take r ++ List.replicate (32 - r) 0
    ∃ t, exec .uDecpart s = .next t ∧
      t.mem.bytesAt (dstChunkAddr s) r = mi.take r ∧
      (∀ x, ¬ inRegion x (dstChunkAddr s) r → t.mem.byteAt x = s.mem.byteAt x) ∧
      t = { s with
        mem := t.mem
        lanes := update s.lanes (blockOfBytes (mz.take 16)) (blockOfBytes (mz.drop 16))
        mpos := s.msgLen, phase := 5 }

/-- 44_finalize_uops R130 with R136: the two lengths in bits are absorbed, X0 that of the associated
data. -/
def Obligations.UFinrAbsorbsTheLengths : Prop :=
  (∀ d f, decodeUsel (uselWord 5 d f) = .ok .uFinr) ∧
  ∀ s : State, s.adLen < 2 ^ 125 → s.msgLen < 2 ^ 125 →
    ∃ x0 x1 : Block, x0.toNat = 8 * s.adLen ∧ x1.toNat = 8 * s.msgLen ∧
      exec .uFinr s = .next { s with
        lanes := update s.lanes x0 x1
        rc := if s.rc = 19 then 0 else s.rc + 1
        phase := if s.rc = 19 then 6 else s.phase }

/-- 44_finalize_uops R131: the exclusive or of the lanes is written at TAG_ADDR. -/
def Obligations.UTagoutWritesTheTag : Prop :=
  (∀ f, decodeUsel (uselWord 6 false f) = .ok .uTagout) ∧
  ∀ s : State, s.mem.wf → s.platform.holds s.tagAddr 16 →
    ∃ t, exec .uTagout s = .next t ∧
      t.mem.bytesAt s.tagAddr 16 = blockBytes (s.lanes.s0 ^^^ s.lanes.s1 ^^^ s.lanes.s2 ^^^
        s.lanes.s3 ^^^ s.lanes.s4 ^^^ s.lanes.s5 ^^^ s.lanes.s6 ^^^ s.lanes.s7) ∧
      (∀ x, ¬ inRegion x s.tagAddr 16 → t.mem.byteAt x = s.mem.byteAt x) ∧
      t = { s with mem := t.mem, phase := 8 }

/-- 44_finalize_uops R132, R133, R138: equal tags go to CLEAR; a difference in any byte records AUTH_FAIL
and goes to WIPE; nothing else changes on either outcome, so the computed tag is kept nowhere. -/
def Obligations.UTagchkComparesTheTag : Prop :=
  (∀ f, decodeUsel (uselWord 6 true f) = .ok .uTagchk) ∧
  ∀ s : State, s.platform.holds s.tagAddr 16 →
    exec .uTagchk s = .next
      (if s.mem.bytesAt s.tagAddr 16 = blockBytes (tagOf s.lanes) then { s with phase := 8 }
        else { s with statusCode := 1, phase := 7 })

/-- 44_finalize_uops R134: every byte of the output buffer becomes 0xAA and no other byte changes. -/
def Obligations.UWipeOverwritesTheOutput : Prop :=
  (∀ d f, decodeUsel (uselWord 7 d f) = .ok .uWipe) ∧
  ∀ s : State, s.mem.wf → s.platform.holds s.dstAddr s.msgLen →
    ∃ t, exec .uWipe s = .next t ∧
      (∀ x, t.mem.byteAt x =
        if inRegion x s.dstAddr s.msgLen then 0xAA#8 else s.mem.byteAt x) ∧
      t = { s with mem := t.mem, phase := 8 }

/-- 44_finalize_uops R135: lanes and sequencing state return to 0, BUSY falls, DONE rises; CODE, WBUSY,
the descriptor registers and memory keep their values. -/
def Obligations.UClearEndsTheCommand : Prop :=
  (∀ d f, decodeUsel (uselWord 8 d f) = .ok .uClear) ∧
  ∀ s : State,
    exec .uClear s = .next { s with
      lanes := ⟨0, 0, 0, 0, 0, 0, 0, 0⟩, rc := 0, adpos := 0, mpos := 0, dir := false
      statusBusy := false, statusDone := true, phase := 0 }

/-- Where the partial forms and U_FINR stop: outside the lengths their rules name, which no selector
gives (log 7, log 8: the model's choice). -/
def Obligations.StopsOutsideTheNamedLengths : Prop :=
  ∀ s : State,
    (¬ (s.adpos < s.adLen ∧ s.adLen - s.adpos ≤ 31) →
      exec .uAdpart s = .fault .partialLengthNot1To31) ∧
    (¬ (s.mpos < s.msgLen ∧ s.msgLen - s.mpos ≤ 31) →
      exec .uEncpart s = .fault .partialLengthNot1To31 ∧
      exec .uDecpart s = .fault .partialLengthNot1To31) ∧
    (2 ^ 125 ≤ s.adLen ∨ 2 ^ 125 ≤ s.msgLen → exec .uFinr s = .fault .lengthNotBelow2Pow125)

/-! ## Frames over all instructions -/

/-- 10_state R35: no instruction writes a descriptor register; nor the platform or the host's side. -/
def Obligations.InstructionsKeepDescriptors : Prop :=
  ∀ (i : Instr) (s t : State), exec i s = .next t →
    t.descriptors = s.descriptors ∧ t.outside = s.outside

/-- 20_memory R56: an instruction changes no byte of memory outside the stretch its row of the table
writes; those that write none leave every byte. -/
def Obligations.InstructionsWriteOnlyTheirStretch : Prop :=
  ∀ (i : Instr) (s t : State), s.mem.wf → exec i s = .next t →
    ∀ x, (∀ p ∈ writes i s, ¬ inRegion x p.1 p.2) → t.mem.byteAt x = s.mem.byteAt x

/-- 20_memory R56, R57: what a micro-operation does depends on no byte of memory outside the stretches
its row of the table reads. -/
def Obligations.MicroOpsReadOnlyTheirStretch : Prop :=
  ∀ (i : Instr) (s t : State) (m : Memory), exec i s = .next t →
    (∀ p ∈ reads i s, ∀ x, inRegion x p.1 p.2 → m.byteAt x = s.mem.byteAt x) →
    s.mem.wf → m.wf →
    ∃ t', exec i { s with mem := m } = .next t' ∧ t' = { t with mem := t'.mem } ∧
      ∀ p ∈ writes i s, ∀ x, inRegion x p.1 p.2 → t'.mem.byteAt x = t.mem.byteAt x

/-- 10_state R37, the flags lines and the operands lines of R110 to R135: which instructions write STATUS
flags, lanes, RC, the cursors and DIR; every other instruction leaves them. -/
def Obligations.RegistersWrittenOnlyWhereNamed : Prop :=
  ∀ (i : Instr) (s t : State), exec i s = .next t →
    (i ∉ ([.encrypt, .decrypt, .uTagchk, .uClear] : List Instr) → t.flags = s.flags) ∧
    (i = .uTagchk → t.statusBusy = s.statusBusy ∧ t.statusDone = s.statusDone ∧
      t.statusWbusy = s.statusWbusy) ∧
    (i = .uClear → t.statusWbusy = s.statusWbusy ∧ t.statusCode = s.statusCode) ∧
    (i ∈ ([.encrypt, .decrypt, .uTagout, .uTagchk, .uWipe] : List Instr) → t.lanes = s.lanes) ∧
    (i ∉ ([.encrypt, .decrypt, .uLoad, .uInitr, .uFinr, .uClear] : List Instr) → t.rc = s.rc) ∧
    (i ∉ ([.encrypt, .decrypt, .uAdfull, .uAdpart, .uClear] : List Instr) → t.adpos = s.adpos) ∧
    (i ∉ ([.encrypt, .decrypt, .uEncfull, .uEncpart, .uDecfull, .uDecpart, .uClear] : List Instr) →
      t.mpos = s.mpos) ∧
    (i ∉ ([.encrypt, .decrypt, .uClear] : List Instr) → t.dir = s.dir)

/-- 45_commands R149, 20_memory R56: every access of the selected micro-operation lies inside a region of
the running command, and every write inside an output region. -/
def Obligations.AccessesStayInsideTheRegions : Prop :=
  ∀ (s : State) (i : Instr), s.Inv → s.statusBusy = true → decodeUsel (usel s) = .ok i →
    (∀ p ∈ reads i s, 0 < p.2 → ∃ r ∈ regions s.dir s,
      r.addr ≤ p.1 ∧ p.1 + p.2 ≤ r.addr + r.len ∧ r.output = false) ∧
    (∀ p ∈ writes i s, 0 < p.2 → ∃ r ∈ regions s.dir s,
      r.addr ≤ p.1 ∧ p.1 + p.2 ≤ r.addr + r.len ∧ r.output = true)

/-- 20_memory R57: a core step changes no byte outside DST and, for ENCRYPT, TAG; and no byte of an input
region, but for SRC when it is DST. -/
def Obligations.CoreStepWritesOnlyOutputs : Prop :=
  ∀ s t : State, s.Inv → s.statusBusy = true → coreStep s = .next t →
    (∀ x, ¬ inRegion x s.dstAddr s.msgLen → (s.dir = false → ¬ inRegion x s.tagAddr 16) →
      t.mem.byteAt x = s.mem.byteAt x) ∧
    (∀ r ∈ regions s.dir s, r.output = false → (r.name = .src → s.srcAddr ≠ s.dstAddr) →
      t.mem.bytesAt r.addr r.len = s.mem.bytesAt r.addr r.len)

/-- 30_encoding R84: the whole phase graph. -/
def Obligations.PhaseGraph : Prop :=
  ∀ s t : State, s.Inv → s.statusBusy = true → coreStep s = .next t →
    (s.phase = 1 → t.phase = 2) ∧
    (s.phase = 2 → t.phase = if s.rc < 19 then 2
      else if 0 < s.adLen then 3 else if 0 < s.msgLen then 4 else 5) ∧
    (s.phase = 3 → t.phase = if t.adpos < s.adLen then 3 else if 0 < s.msgLen then 4 else 5) ∧
    (s.phase = 4 → t.phase = if t.mpos < s.msgLen then 4 else 5) ∧
    (s.phase = 5 → t.phase = if s.rc < 19 then 5 else 6) ∧
    (s.phase = 6 → s.dir = false → t.phase = 8) ∧
    (s.phase = 6 → s.dir = true → t.phase =
      if tagDiff (tagOf s.lanes) (blockOfBytes (s.mem.bytesAt s.tagAddr 16)) = 0 then 8 else 7) ∧
    (s.phase = 7 → t.phase = 8) ∧
    (s.phase = 8 → t.phase = 0)

/-- 60_exceptions R176: two running commands that agree on DIR, the descriptor registers and the other
sequencing state select the same micro-operation, make the same accesses and go on alike, whatever the
lanes and the memory hold; only the tag comparison tells WIPE from CLEAR. -/
def Obligations.SequenceIgnoresTheData : Prop :=
  ∀ s s' t t' : State, s.Inv → s'.Inv → s.statusBusy = true → s'.statusBusy = true →
    s.sequencing = s'.sequencing → s.descriptors = s'.descriptors →
    coreStep s = .next t → coreStep s' = .next t' →
    usel s = usel s' ∧ (∀ i, reads i s = reads i s' ∧ writes i s = writes i s') ∧
    (¬ (s.phase = 6 ∧ s.dir = true) → t.sequencing = t'.sequencing) ∧
    (s.phase = 6 ∧ s.dir = true → (t.phase = 7 ∨ t.phase = 8) ∧
      t.sequencing.2 = t'.sequencing.2)

/-- 45_commands R150, 60_exceptions R166: WBUSY, the host's coming actions and what the host has read never
change what a core step computes. -/
def Obligations.HostDoesNotDisturbTheRun : Prop :=
  ∀ (s t : State) (w : Bool) (h : List HostAction) (o : List Seen),
    s.statusBusy = true → coreStep s = .next t →
    coreStep { s with statusWbusy := w, host := h, seen := o } =
      .next { t with statusWbusy := w, host := h, seen := o }

/-! ## The datapath functions -/

/-- 40_datapath_functions R92: the S-box table is the inverse in GF(2^8) followed by the affine map. -/
def Obligations.SboxTableMatchesItsFormula : Prop :=
  ∀ x : Byte, ∃ y : Byte, (if x = 0 then y = 0 else gfMul x y = 1) ∧ sbox x = sboxAffine y

/-- 40_datapath_functions R91 to R96: the AES round byte by byte: row r of column c takes the S-box images of
the bytes that ShiftRows brings there, mixed, and the key byte last. -/
def Obligations.AesRoundByteByByte : Prop :=
  ∀ (b k : Block) (c : Nat), c < 4 →
    let a := fun r => sbox (blockByte b (4 * ((c + r) % 4) + r))
    blockByte (aesRound b k) (4 * c) =
      mul2 (a 0) ^^^ mul3 (a 1) ^^^ a 2 ^^^ a 3 ^^^ blockByte k (4 * c) ∧
    blockByte (aesRound b k) (4 * c + 1) =
      a 0 ^^^ mul2 (a 1) ^^^ mul3 (a 2) ^^^ a 3 ^^^ blockByte k (4 * c + 1) ∧
    blockByte (aesRound b k) (4 * c + 2) =
      a 0 ^^^ a 1 ^^^ mul2 (a 2) ^^^ mul3 (a 3) ^^^ blockByte k (4 * c + 2) ∧
    blockByte (aesRound b k) (4 * c + 3) =
      mul3 (a 0) ^^^ a 1 ^^^ a 2 ^^^ mul2 (a 3) ^^^ blockByte k (4 * c + 3)

/-- 40_datapath_functions R98, R99, R103, R184: Update as eight functions of the old lanes, Keystream as the
bytes of two AES rounds, TagOf as the exclusive or of all lanes. -/
def Obligations.UpdateKeystreamAndTagOfLanes : Prop :=
  ∀ (S : Lanes) (x0 x1 : Block),
    update S x0 x1 =
      ⟨S.s7 ^^^ x0, aesRound S.s0 S.s7, S.s1 ^^^ S.s6, aesRound S.s2 S.s1,
        S.s3 ^^^ x1, aesRound S.s4 S.s3, aesRound S.s5 S.s4, S.s0 ^^^ S.s6⟩ ∧
    keystream S =
      blockBytes (aesRound S.s1 S.s5) ++ blockBytes (aesRound (S.s0 ^^^ S.s4) S.s2) ∧
    tagOf S = S.s0 ^^^ S.s1 ^^^ S.s2 ^^^ S.s3 ^^^ S.s4 ^^^ S.s5 ^^^ S.s6 ^^^ S.s7

/-- 40_datapath_functions R102: LenBlock is the little-endian Block of the length in bits, with the rule's
examples. -/
def Obligations.LenBlockIsTheLengthInBits : Prop :=
  (∀ n : Nat, n < 2 ^ 125 → (lenBlock n).toNat = 8 * n ∧ le (blockBytes (lenBlock n)) = 8 * n) ∧
  lenBlock 0 = 0 ∧ blockBytes (lenBlock 1) = 0x08 :: List.replicate 15 0 ∧
  blockBytes (lenBlock 33) = 0x08 :: 0x01 :: List.replicate 14 0 ∧
  blockBytes (lenBlock 1000) = 0x40 :: 0x1f :: List.replicate 14 0

/-- 40_datapath_functions R104: all sixteen byte differences enter TagDiff, and it is 0 exactly when the two
Blocks are equal. -/
def Obligations.TagDiffIsZeroExactlyOnEqualTags : Prop :=
  ∀ t t' : Block,
    (∀ j < 8, (tagDiff t t').getLsbD j =
      (List.range 16).any fun k => (blockByte t k ^^^ blockByte t' k).getLsbD j) ∧
    (tagDiff t t' = 0 ↔ t = t')

/-! ## Phases and whole commands -/

/-- 41_init_uops R112: U_LOAD and twenty U_INITR leave Init(key, nonce) in the lanes. -/
def Obligations.InitPhaseComputesInit : Prop :=
  ∀ s : State, s.statusBusy = true → s.phase = 1 →
    s.platform.holds s.keyAddr 32 → s.platform.holds s.nonceAddr 16 →
    coreSteps 21 s = .next { s with
      lanes := initState (s.mem.bytesAt s.keyAddr 32) (s.mem.bytesAt s.nonceAddr 16)
      rc := 0
      phase := if 0 < s.adLen then 3 else if 0 < s.msgLen then 4 else 5 }

/-- 42_absorb_uops R118: the AD phase leaves AbsorbAD(S, ad) in the lanes, in ceil(AD_LEN / 32) steps. -/
def Obligations.AdPhaseComputesAbsorbAD : Prop :=
  ∀ s : State, s.Inv → s.phase = 3 → s.adpos = 0 →
    coreSteps ((s.adLen + 31) / 32) s = .next { s with
      lanes := absorbAD s.lanes (s.mem.bytesAt s.adAddr s.adLen)
      adpos := s.adLen
      phase := if 0 < s.msgLen then 4 else 5 }

/-- 43_message_uops R125: the message phase computes EncMsg or DecMsg of the input region as it was at the
start, in place or not, and writes DST only. -/
def Obligations.MsgPhaseComputesTheMessage : Prop :=
  ∀ s : State, s.Inv → s.phase = 4 → s.mpos = 0 →
    let out := if s.dir then decMsg s.lanes (s.mem.bytesAt s.srcAddr s.msgLen)
      else encMsg s.lanes (s.mem.bytesAt s.srcAddr s.msgLen)
    ∃ t, coreSteps ((s.msgLen + 31) / 32) s = .next t ∧
      t.mem.bytesAt s.dstAddr s.msgLen = out.2 ∧
      (∀ x, ¬ inRegion x s.dstAddr s.msgLen → t.mem.byteAt x = s.mem.byteAt x) ∧
      t = { s with mem := t.mem, lanes := out.1, mpos := s.msgLen, phase := 5 }

/-- 44_finalize_uops R137: after twenty U_FINR the tag is Finalize of the lanes before. -/
def Obligations.FinalPhaseComputesFinalize : Prop :=
  ∀ s : State, s.statusBusy = true → s.phase = 5 → s.rc = 0 →
    s.adLen < 2 ^ 125 → s.msgLen < 2 ^ 125 →
    ∃ t, coreSteps 20 s = .next t ∧ tagOf t.lanes = finalize s.lanes s.adLen s.msgLen ∧
      t = { s with lanes := t.lanes, phase := 6 }

/-- 43_message_uops R125: DecMsg undoes EncMsg and leaves the same lanes. -/
def Obligations.DecMsgUndoesEncMsg : Prop :=
  ∀ (S : Lanes) (m : Bytes), decMsg S (encMsg S m).2 = ((encMsg S m).1, m)

/-- 45_commands R153 (a), (c), (d), (e): what RoccaEncrypt wrote, RoccaDecrypt restores; the lengths agree;
a tag that differs in any bit is refused and the output is all 0xAA. -/
def Obligations.RoccaRoundTripAndTagFlip : Prop :=
  ∀ (key nonce ad m : Bytes) (tag : Block),
    (roccaEncrypt key nonce ad m).1.length = m.length ∧
    roccaDecrypt key nonce ad (roccaEncrypt key nonce ad m).1 (roccaEncrypt key nonce ad m).2 =
      (true, m) ∧
    (tag ≠ (roccaEncrypt key nonce ad m).2 →
      roccaDecrypt key nonce ad (roccaEncrypt key nonce ad m).1 tag =
        (false, List.replicate m.length 0xAA#8))

/-- 45_commands R151 with R156: an accepted ENCRYPT runs exactly its number of steps, is busy until the last,
and ends with the ciphertext at DST, the tag at TAG, every other byte as it was, and the core idle. -/
def Obligations.EncryptCommandComputesRoccaEncrypt : Prop :=
  ∀ s s₀ : State, s.Inv → s.statusBusy = false → s.accepts false → exec .encrypt s = .next s₀ →
    let out := roccaEncrypt (s.mem.bytesAt s.keyAddr 32) (s.mem.bytesAt s.nonceAddr 16)
      (s.mem.bytesAt s.adAddr s.adLen) (s.mem.bytesAt s.srcAddr s.msgLen)
    (∀ k < commandSteps s.adLen s.msgLen, ∃ u, coreSteps k s₀ = .next u ∧ u.statusBusy = true) ∧
    ∃ t, coreSteps (commandSteps s.adLen s.msgLen) s₀ = .next t ∧
      t.mem.bytesAt s.dstAddr s.msgLen = out.1 ∧
      t.mem.bytesAt s.tagAddr 16 = blockBytes out.2 ∧
      (∀ x, ¬ inRegion x s.dstAddr s.msgLen → ¬ inRegion x s.tagAddr 16 →
        t.mem.byteAt x = s.mem.byteAt x) ∧
      t = { s with mem := t.mem, statusDone := true, statusCode := 0, statusWbusy := false }

/-- 45_commands R152 with R156, 60_exceptions R161: an accepted DECRYPT ends with RoccaDecrypt's output at
DST, one step more when the tags differ, CODE 0 or 1 accordingly, and every other byte as it was. -/
def Obligations.DecryptCommandComputesRoccaDecrypt : Prop :=
  ∀ s s₀ : State, s.Inv → s.statusBusy = false → s.accepts true → exec .decrypt s = .next s₀ →
    let out := roccaDecrypt (s.mem.bytesAt s.keyAddr 32) (s.mem.bytesAt s.nonceAddr 16)
      (s.mem.bytesAt s.adAddr s.adLen) (s.mem.bytesAt s.srcAddr s.msgLen)
      (blockOfBytes (s.mem.bytesAt s.tagAddr 16))
    let n := commandSteps s.adLen s.msgLen + if out.1 then 0 else 1
    (∀ k < n, ∃ u, coreSteps k s₀ = .next u ∧ u.statusBusy = true) ∧
    ∃ t, coreSteps n s₀ = .next t ∧
      t.mem.bytesAt s.dstAddr s.msgLen = out.2 ∧
      (∀ x, ¬ inRegion x s.dstAddr s.msgLen → t.mem.byteAt x = s.mem.byteAt x) ∧
      t = { s with
        mem := t.mem, statusDone := true, statusCode := if out.1 then 0 else 1
        statusWbusy := false }

/-- 45_commands R154: in place, ENCRYPT and then DECRYPT with the same descriptors restores the message. -/
def Obligations.InPlaceRoundTripRestoresTheMessage : Prop :=
  ∀ s s₀ : State, s.Inv → s.statusBusy = false → s.dstAddr = s.srcAddr →
    s.accepts false → s.accepts true → exec .encrypt s = .next s₀ →
    ∃ t t₀ u, coreSteps (commandSteps s.adLen s.msgLen) s₀ = .next t ∧
      exec .decrypt t = .next t₀ ∧ coreSteps (commandSteps s.adLen s.msgLen) t₀ = .next u ∧
      u.statusBusy = false ∧ u.statusDone = true ∧ u.statusCode = 0 ∧
      u.mem.bytesAt s.srcAddr s.msgLen = s.mem.bytesAt s.srcAddr s.msgLen
end

