-- ==== Sys2Proof/Laws/State.lean ====
section
/-! SUPPORT. One lemma per field per shared update of the state, so that no proof unfolds an update. -/

namespace Sys2Proof.Machine

/-! `finishRound` -/

@[simp] theorem finishRound_lanes (p : Phase) (s : State) : (finishRound p s).lanes = s.lanes := rfl
@[simp] theorem finishRound_phase (p : Phase) (s : State) : (finishRound p s).phase = if s.rc = 19 then p else s.phase := rfl
@[simp] theorem finishRound_dir (p : Phase) (s : State) : (finishRound p s).dir = s.dir := rfl
@[simp] theorem finishRound_rc (p : Phase) (s : State) : (finishRound p s).rc = if s.rc = 19 then 0 else s.rc + 1 := rfl
@[simp] theorem finishRound_adpos (p : Phase) (s : State) : (finishRound p s).adpos = s.adpos := rfl
@[simp] theorem finishRound_mpos (p : Phase) (s : State) : (finishRound p s).mpos = s.mpos := rfl
@[simp] theorem finishRound_statusBusy (p : Phase) (s : State) : (finishRound p s).statusBusy = s.statusBusy := rfl
@[simp] theorem finishRound_statusDone (p : Phase) (s : State) : (finishRound p s).statusDone = s.statusDone := rfl
@[simp] theorem finishRound_statusWbusy (p : Phase) (s : State) : (finishRound p s).statusWbusy = s.statusWbusy := rfl
@[simp] theorem finishRound_statusCode (p : Phase) (s : State) : (finishRound p s).statusCode = s.statusCode := rfl
@[simp] theorem finishRound_keyAddr (p : Phase) (s : State) : (finishRound p s).keyAddr = s.keyAddr := rfl
@[simp] theorem finishRound_nonceAddr (p : Phase) (s : State) : (finishRound p s).nonceAddr = s.nonceAddr := rfl
@[simp] theorem finishRound_adAddr (p : Phase) (s : State) : (finishRound p s).adAddr = s.adAddr := rfl
@[simp] theorem finishRound_adLen (p : Phase) (s : State) : (finishRound p s).adLen = s.adLen := rfl
@[simp] theorem finishRound_srcAddr (p : Phase) (s : State) : (finishRound p s).srcAddr = s.srcAddr := rfl
@[simp] theorem finishRound_dstAddr (p : Phase) (s : State) : (finishRound p s).dstAddr = s.dstAddr := rfl
@[simp] theorem finishRound_msgLen (p : Phase) (s : State) : (finishRound p s).msgLen = s.msgLen := rfl
@[simp] theorem finishRound_tagAddr (p : Phase) (s : State) : (finishRound p s).tagAddr = s.tagAddr := rfl
@[simp] theorem finishRound_mem (p : Phase) (s : State) : (finishRound p s).mem = s.mem := rfl
@[simp] theorem finishRound_platform (p : Phase) (s : State) : (finishRound p s).platform = s.platform := rfl
@[simp] theorem finishRound_host (p : Phase) (s : State) : (finishRound p s).host = s.host := rfl
@[simp] theorem finishRound_seen (p : Phase) (s : State) : (finishRound p s).seen = s.seen := rfl

/-! `refuse` -/

@[simp] theorem refuse_lanes (c : BitVec 4) (s : State) : (refuse c s).lanes = s.lanes := rfl
@[simp] theorem refuse_phase (c : BitVec 4) (s : State) : (refuse c s).phase = s.phase := rfl
@[simp] theorem refuse_dir (c : BitVec 4) (s : State) : (refuse c s).dir = s.dir := rfl
@[simp] theorem refuse_rc (c : BitVec 4) (s : State) : (refuse c s).rc = s.rc := rfl
@[simp] theorem refuse_adpos (c : BitVec 4) (s : State) : (refuse c s).adpos = s.adpos := rfl
@[simp] theorem refuse_mpos (c : BitVec 4) (s : State) : (refuse c s).mpos = s.mpos := rfl
@[simp] theorem refuse_statusBusy (c : BitVec 4) (s : State) : (refuse c s).statusBusy = s.statusBusy := rfl
@[simp] theorem refuse_statusDone (c : BitVec 4) (s : State) : (refuse c s).statusDone = true := rfl
@[simp] theorem refuse_statusWbusy (c : BitVec 4) (s : State) : (refuse c s).statusWbusy = s.statusWbusy := rfl
@[simp] theorem refuse_statusCode (c : BitVec 4) (s : State) : (refuse c s).statusCode = c := rfl
@[simp] theorem refuse_keyAddr (c : BitVec 4) (s : State) : (refuse c s).keyAddr = s.keyAddr := rfl
@[simp] theorem refuse_nonceAddr (c : BitVec 4) (s : State) : (refuse c s).nonceAddr = s.nonceAddr := rfl
@[simp] theorem refuse_adAddr (c : BitVec 4) (s : State) : (refuse c s).adAddr = s.adAddr := rfl
@[simp] theorem refuse_adLen (c : BitVec 4) (s : State) : (refuse c s).adLen = s.adLen := rfl
@[simp] theorem refuse_srcAddr (c : BitVec 4) (s : State) : (refuse c s).srcAddr = s.srcAddr := rfl
@[simp] theorem refuse_dstAddr (c : BitVec 4) (s : State) : (refuse c s).dstAddr = s.dstAddr := rfl
@[simp] theorem refuse_msgLen (c : BitVec 4) (s : State) : (refuse c s).msgLen = s.msgLen := rfl
@[simp] theorem refuse_tagAddr (c : BitVec 4) (s : State) : (refuse c s).tagAddr = s.tagAddr := rfl
@[simp] theorem refuse_mem (c : BitVec 4) (s : State) : (refuse c s).mem = s.mem := rfl
@[simp] theorem refuse_platform (c : BitVec 4) (s : State) : (refuse c s).platform = s.platform := rfl
@[simp] theorem refuse_host (c : BitVec 4) (s : State) : (refuse c s).host = s.host := rfl
@[simp] theorem refuse_seen (c : BitVec 4) (s : State) : (refuse c s).seen = s.seen := rfl

/-! `raiseAuthFail` -/

@[simp] theorem raiseAuthFail_lanes (s : State) : (raiseAuthFail s).lanes = s.lanes := rfl
@[simp] theorem raiseAuthFail_phase (s : State) : (raiseAuthFail s).phase = s.phase := rfl
@[simp] theorem raiseAuthFail_dir (s : State) : (raiseAuthFail s).dir = s.dir := rfl
@[simp] theorem raiseAuthFail_rc (s : State) : (raiseAuthFail s).rc = s.rc := rfl
@[simp] theorem raiseAuthFail_adpos (s : State) : (raiseAuthFail s).adpos = s.adpos := rfl
@[simp] theorem raiseAuthFail_mpos (s : State) : (raiseAuthFail s).mpos = s.mpos := rfl
@[simp] theorem raiseAuthFail_statusBusy (s : State) : (raiseAuthFail s).statusBusy = s.statusBusy := rfl
@[simp] theorem raiseAuthFail_statusDone (s : State) : (raiseAuthFail s).statusDone = s.statusDone := rfl
@[simp] theorem raiseAuthFail_statusWbusy (s : State) : (raiseAuthFail s).statusWbusy = s.statusWbusy := rfl
@[simp] theorem raiseAuthFail_statusCode (s : State) : (raiseAuthFail s).statusCode = 1 := rfl
@[simp] theorem raiseAuthFail_keyAddr (s : State) : (raiseAuthFail s).keyAddr = s.keyAddr := rfl
@[simp] theorem raiseAuthFail_nonceAddr (s : State) : (raiseAuthFail s).nonceAddr = s.nonceAddr := rfl
@[simp] theorem raiseAuthFail_adAddr (s : State) : (raiseAuthFail s).adAddr = s.adAddr := rfl
@[simp] theorem raiseAuthFail_adLen (s : State) : (raiseAuthFail s).adLen = s.adLen := rfl
@[simp] theorem raiseAuthFail_srcAddr (s : State) : (raiseAuthFail s).srcAddr = s.srcAddr := rfl
@[simp] theorem raiseAuthFail_dstAddr (s : State) : (raiseAuthFail s).dstAddr = s.dstAddr := rfl
@[simp] theorem raiseAuthFail_msgLen (s : State) : (raiseAuthFail s).msgLen = s.msgLen := rfl
@[simp] theorem raiseAuthFail_tagAddr (s : State) : (raiseAuthFail s).tagAddr = s.tagAddr := rfl
@[simp] theorem raiseAuthFail_mem (s : State) : (raiseAuthFail s).mem = s.mem := rfl
@[simp] theorem raiseAuthFail_platform (s : State) : (raiseAuthFail s).platform = s.platform := rfl
@[simp] theorem raiseAuthFail_host (s : State) : (raiseAuthFail s).host = s.host := rfl
@[simp] theorem raiseAuthFail_seen (s : State) : (raiseAuthFail s).seen = s.seen := rfl

/-! `clearResult` -/

@[simp] theorem clearResult_lanes (s : State) : (clearResult s).lanes = s.lanes := rfl
@[simp] theorem clearResult_phase (s : State) : (clearResult s).phase = s.phase := rfl
@[simp] theorem clearResult_dir (s : State) : (clearResult s).dir = s.dir := rfl
@[simp] theorem clearResult_rc (s : State) : (clearResult s).rc = s.rc := rfl
@[simp] theorem clearResult_adpos (s : State) : (clearResult s).adpos = s.adpos := rfl
@[simp] theorem clearResult_mpos (s : State) : (clearResult s).mpos = s.mpos := rfl
@[simp] theorem clearResult_statusBusy (s : State) : (clearResult s).statusBusy = s.statusBusy := rfl
@[simp] theorem clearResult_statusDone (s : State) : (clearResult s).statusDone = false := rfl
@[simp] theorem clearResult_statusWbusy (s : State) : (clearResult s).statusWbusy = false := rfl
@[simp] theorem clearResult_statusCode (s : State) : (clearResult s).statusCode = 0 := rfl
@[simp] theorem clearResult_keyAddr (s : State) : (clearResult s).keyAddr = s.keyAddr := rfl
@[simp] theorem clearResult_nonceAddr (s : State) : (clearResult s).nonceAddr = s.nonceAddr := rfl
@[simp] theorem clearResult_adAddr (s : State) : (clearResult s).adAddr = s.adAddr := rfl
@[simp] theorem clearResult_adLen (s : State) : (clearResult s).adLen = s.adLen := rfl
@[simp] theorem clearResult_srcAddr (s : State) : (clearResult s).srcAddr = s.srcAddr := rfl
@[simp] theorem clearResult_dstAddr (s : State) : (clearResult s).dstAddr = s.dstAddr := rfl
@[simp] theorem clearResult_msgLen (s : State) : (clearResult s).msgLen = s.msgLen := rfl
@[simp] theorem clearResult_tagAddr (s : State) : (clearResult s).tagAddr = s.tagAddr := rfl
@[simp] theorem clearResult_mem (s : State) : (clearResult s).mem = s.mem := rfl
@[simp] theorem clearResult_platform (s : State) : (clearResult s).platform = s.platform := rfl
@[simp] theorem clearResult_host (s : State) : (clearResult s).host = s.host := rfl
@[simp] theorem clearResult_seen (s : State) : (clearResult s).seen = s.seen := rfl

/-! `noteWbusy` -/

@[simp] theorem noteWbusy_lanes (s : State) : (noteWbusy s).lanes = s.lanes := rfl
@[simp] theorem noteWbusy_phase (s : State) : (noteWbusy s).phase = s.phase := rfl
@[simp] theorem noteWbusy_dir (s : State) : (noteWbusy s).dir = s.dir := rfl
@[simp] theorem noteWbusy_rc (s : State) : (noteWbusy s).rc = s.rc := rfl
@[simp] theorem noteWbusy_adpos (s : State) : (noteWbusy s).adpos = s.adpos := rfl
@[simp] theorem noteWbusy_mpos (s : State) : (noteWbusy s).mpos = s.mpos := rfl
@[simp] theorem noteWbusy_statusBusy (s : State) : (noteWbusy s).statusBusy = s.statusBusy := rfl
@[simp] theorem noteWbusy_statusDone (s : State) : (noteWbusy s).statusDone = s.statusDone := rfl
@[simp] theorem noteWbusy_statusWbusy (s : State) : (noteWbusy s).statusWbusy = true := rfl
@[simp] theorem noteWbusy_statusCode (s : State) : (noteWbusy s).statusCode = s.statusCode := rfl
@[simp] theorem noteWbusy_keyAddr (s : State) : (noteWbusy s).keyAddr = s.keyAddr := rfl
@[simp] theorem noteWbusy_nonceAddr (s : State) : (noteWbusy s).nonceAddr = s.nonceAddr := rfl
@[simp] theorem noteWbusy_adAddr (s : State) : (noteWbusy s).adAddr = s.adAddr := rfl
@[simp] theorem noteWbusy_adLen (s : State) : (noteWbusy s).adLen = s.adLen := rfl
@[simp] theorem noteWbusy_srcAddr (s : State) : (noteWbusy s).srcAddr = s.srcAddr := rfl
@[simp] theorem noteWbusy_dstAddr (s : State) : (noteWbusy s).dstAddr = s.dstAddr := rfl
@[simp] theorem noteWbusy_msgLen (s : State) : (noteWbusy s).msgLen = s.msgLen := rfl
@[simp] theorem noteWbusy_tagAddr (s : State) : (noteWbusy s).tagAddr = s.tagAddr := rfl
@[simp] theorem noteWbusy_mem (s : State) : (noteWbusy s).mem = s.mem := rfl
@[simp] theorem noteWbusy_platform (s : State) : (noteWbusy s).platform = s.platform := rfl
@[simp] theorem noteWbusy_host (s : State) : (noteWbusy s).host = s.host := rfl
@[simp] theorem noteWbusy_seen (s : State) : (noteWbusy s).seen = s.seen := rfl

/-! `start` -/

@[simp] theorem start_lanes (d : Bool) (s : State) : (start d s).lanes = s.lanes := rfl
@[simp] theorem start_phase (d : Bool) (s : State) : (start d s).phase = Phase.load := rfl
@[simp] theorem start_dir (d : Bool) (s : State) : (start d s).dir = d := rfl
@[simp] theorem start_rc (d : Bool) (s : State) : (start d s).rc = 0 := rfl
@[simp] theorem start_adpos (d : Bool) (s : State) : (start d s).adpos = 0 := rfl
@[simp] theorem start_mpos (d : Bool) (s : State) : (start d s).mpos = 0 := rfl
@[simp] theorem start_statusBusy (d : Bool) (s : State) : (start d s).statusBusy = true := rfl
@[simp] theorem start_statusDone (d : Bool) (s : State) : (start d s).statusDone = s.statusDone := rfl
@[simp] theorem start_statusWbusy (d : Bool) (s : State) : (start d s).statusWbusy = s.statusWbusy := rfl
@[simp] theorem start_statusCode (d : Bool) (s : State) : (start d s).statusCode = s.statusCode := rfl
@[simp] theorem start_keyAddr (d : Bool) (s : State) : (start d s).keyAddr = s.keyAddr := rfl
@[simp] theorem start_nonceAddr (d : Bool) (s : State) : (start d s).nonceAddr = s.nonceAddr := rfl
@[simp] theorem start_adAddr (d : Bool) (s : State) : (start d s).adAddr = s.adAddr := rfl
@[simp] theorem start_adLen (d : Bool) (s : State) : (start d s).adLen = s.adLen := rfl
@[simp] theorem start_srcAddr (d : Bool) (s : State) : (start d s).srcAddr = s.srcAddr := rfl
@[simp] theorem start_dstAddr (d : Bool) (s : State) : (start d s).dstAddr = s.dstAddr := rfl
@[simp] theorem start_msgLen (d : Bool) (s : State) : (start d s).msgLen = s.msgLen := rfl
@[simp] theorem start_tagAddr (d : Bool) (s : State) : (start d s).tagAddr = s.tagAddr := rfl
@[simp] theorem start_mem (d : Bool) (s : State) : (start d s).mem = s.mem := rfl
@[simp] theorem start_platform (d : Bool) (s : State) : (start d s).platform = s.platform := rfl
@[simp] theorem start_host (d : Bool) (s : State) : (start d s).host = s.host := rfl
@[simp] theorem start_seen (d : Bool) (s : State) : (start d s).seen = s.seen := rfl

/-! `resetInput` -/

@[simp] theorem resetInput_lanes (s : State) : (resetInput s).lanes = Lanes.zero := rfl
@[simp] theorem resetInput_phase (s : State) : (resetInput s).phase = Phase.idle := rfl
@[simp] theorem resetInput_dir (s : State) : (resetInput s).dir = false := rfl
@[simp] theorem resetInput_rc (s : State) : (resetInput s).rc = 0 := rfl
@[simp] theorem resetInput_adpos (s : State) : (resetInput s).adpos = 0 := rfl
@[simp] theorem resetInput_mpos (s : State) : (resetInput s).mpos = 0 := rfl
@[simp] theorem resetInput_statusBusy (s : State) : (resetInput s).statusBusy = false := rfl
@[simp] theorem resetInput_statusDone (s : State) : (resetInput s).statusDone = false := rfl
@[simp] theorem resetInput_statusWbusy (s : State) : (resetInput s).statusWbusy = false := rfl
@[simp] theorem resetInput_statusCode (s : State) : (resetInput s).statusCode = 0 := rfl
@[simp] theorem resetInput_keyAddr (s : State) : (resetInput s).keyAddr = 0 := rfl
@[simp] theorem resetInput_nonceAddr (s : State) : (resetInput s).nonceAddr = 0 := rfl
@[simp] theorem resetInput_adAddr (s : State) : (resetInput s).adAddr = 0 := rfl
@[simp] theorem resetInput_adLen (s : State) : (resetInput s).adLen = 0 := rfl
@[simp] theorem resetInput_srcAddr (s : State) : (resetInput s).srcAddr = 0 := rfl
@[simp] theorem resetInput_dstAddr (s : State) : (resetInput s).dstAddr = 0 := rfl
@[simp] theorem resetInput_msgLen (s : State) : (resetInput s).msgLen = 0 := rfl
@[simp] theorem resetInput_tagAddr (s : State) : (resetInput s).tagAddr = 0 := rfl
@[simp] theorem resetInput_mem (s : State) : (resetInput s).mem = s.mem := rfl
@[simp] theorem resetInput_platform (s : State) : (resetInput s).platform = s.platform := rfl
@[simp] theorem resetInput_host (s : State) : (resetInput s).host = s.host := rfl
@[simp] theorem resetInput_seen (s : State) : (resetInput s).seen = s.seen := rfl

/-! Equal states from equal parts. Compare two states field by field (`simp [State.descriptors]`): `rfl`
between a projection of two different states compares their lanes first and unfolds the cipher. -/

theorem descriptors_eq_iff (s t : State) :
    s.descriptors = t.descriptors ↔
      s.keyAddr = t.keyAddr ∧ s.nonceAddr = t.nonceAddr ∧ s.adAddr = t.adAddr ∧ s.adLen = t.adLen ∧
      s.srcAddr = t.srcAddr ∧ s.dstAddr = t.dstAddr ∧ s.msgLen = t.msgLen ∧
      s.tagAddr = t.tagAddr := by
  simp [State.descriptors]

end Sys2Proof.Machine
end

