-- ==== Sys2Proof/Laws/Datapath.lean ====
section
/-! SUPPORT. The laws of byte strings and Blocks: the two views of a Block, exclusive or, padding. -/

namespace Sys2Proof.Machine

/-! The two views of a Block (00_scope R10, R11). -/

@[simp] theorem length_blockBytes (b : Block) : (blockBytes b).length = 16 := by simp [blockBytes]

theorem getElem_blockBytes (b : Block) (k : Nat) (hk : k < (blockBytes b).length) :
    (blockBytes b)[k] = blockByte b k := by simp [blockBytes]

theorem le_lt (b : Bytes) : le b < 256 ^ b.length := by
  induction b with
  | nil => simp [le]
  | cons x b ih =>
    have := x.isLt
    simp only [le, List.length_cons, Nat.pow_succ]
    omega

theorem le_append (b c : Bytes) : le (b ++ c) = le b + 256 ^ b.length * le c := by
  induction b with
  | nil => simp [le]
  | cons x b ih =>
    simp only [List.cons_append, le, ih, List.length_cons, Nat.pow_succ]
    ring

/-- Byte `k` of a little-endian value is element `k` of the string. -/
theorem le_div_mod (b : Bytes) (k : Nat) (hk : k < b.length) :
    le b / 256 ^ k % 256 = b[k].toNat := by
  induction b generalizing k with
  | nil => simp at hk
  | cons x b ih =>
    have hx := x.isLt
    cases k with
    | zero => simp only [le, Nat.pow_zero, Nat.div_one, List.getElem_cons_zero]; omega
    | succ k =>
      have h256 : (x.toNat + 256 * le b) / 256 = le b := by omega
      simp only [le, Nat.pow_succ', ← Nat.div_div_eq_div_mul, h256, List.getElem_cons_succ]
      exact ih k (by simpa using hk)

theorem toNat_blockByte (b : Block) (k : Nat) : (blockByte b k).toNat = b.toNat / 256 ^ k % 256 := by
  simp [blockByte, Nat.shiftRight_eq_div_pow, Nat.pow_mul]

/-- Byte `k` of the Block made from 16 bytes is element `k`. -/
theorem blockByte_blockOfBytes (l : Bytes) (hl : l.length = 16) (k : Nat) (hk : k < l.length) :
    blockByte (blockOfBytes l) k = l[k] := by
  apply BitVec.eq_of_toNat_eq
  have h := le_lt l
  rw [hl] at h
  rw [toNat_blockByte, blockOfBytes, le128, BitVec.toNat_ofNat,
    Nat.mod_eq_of_lt (h.trans_eq (by norm_num)), le_div_mod]

/-- The bytes of the Block made from 16 bytes are those bytes. -/
theorem blockBytes_blockOfBytes (l : Bytes) (hl : l.length = 16) :
    blockBytes (blockOfBytes l) = l := by
  refine List.ext_getElem (by simp [hl]) fun k hk hk' => ?_
  rw [getElem_blockBytes, blockByte_blockOfBytes l hl k hk']

/-- Two Blocks with the same sixteen bytes are equal. -/
theorem block_ext {a b : Block} (h : ∀ k < 16, blockByte a k = blockByte b k) : a = b := by
  apply BitVec.eq_of_getLsbD_eq
  intro i hi
  have := congrArg (fun x : Byte => x.getLsbD (i % 8)) (h (i / 8) (by omega))
  simpa [blockByte, Nat.mod_lt, Nat.div_add_mod] using this

/-- The Block made from a Block's bytes is that Block. -/
theorem blockOfBytes_blockBytes (b : Block) : blockOfBytes (blockBytes b) = b := by
  refine block_ext fun k hk => ?_
  rw [blockByte_blockOfBytes _ (by simp) k (by simpa using hk), getElem_blockBytes]

@[simp] theorem blockByte_xor (a b : Block) (k : Nat) :
    blockByte (a ^^^ b) k = blockByte a k ^^^ blockByte b k := by
  simp only [blockByte, BitVec.extractLsb'_xor]

/-- A value below 2^128 is the little-endian value of its Block's bytes (R11). -/
theorem le_blockBytes (b : Block) : le (blockBytes b) = b.toNat := by
  have h := le_lt (blockBytes b)
  have := congrArg BitVec.toNat (blockOfBytes_blockBytes b)
  rw [blockOfBytes, le128, BitVec.toNat_ofNat] at this
  rwa [Nat.mod_eq_of_lt (by simpa using h)] at this

/-! Exclusive or of byte strings (R14). -/

@[simp] theorem length_xorBytes (a b : Bytes) :
    (xorBytes a b).length = min a.length b.length := by simp [xorBytes]

theorem getElem_xorBytes (a b : Bytes) (k : Nat) (hk : k < (xorBytes a b).length) :
    (xorBytes a b)[k] = a[k]'(by simp at hk; omega) ^^^ b[k]'(by simp at hk; omega) := by
  simp [xorBytes]

/-- The same key stream twice leaves the data. -/
theorem xorBytes_xorBytes (k b : Bytes) (h : b.length ≤ k.length) :
    xorBytes k (xorBytes k b) = b := by
  refine List.ext_getElem (by simp; omega) fun i hi hi' => ?_
  rw [getElem_xorBytes, getElem_xorBytes, ← BitVec.xor_assoc, BitVec.xor_self, BitVec.zero_xor]

theorem take_xorBytes (a b : Bytes) (n : Nat) :
    (xorBytes a b).take n = xorBytes (a.take n) (b.take n) := by
  simp [xorBytes, List.take_zipWith]

@[simp] theorem length_keystream (S : Lanes) : (keystream S).length = 32 := by simp [keystream]

/-! Padding (40_datapath_functions R101). -/

theorem length_pad32 (b : Bytes) (h : b.length ≤ 32) : (pad32 b).length = 32 := by
  simp [pad32]; omega

@[simp] theorem pad32_full (b : Bytes) (h : b.length = 32) : pad32 b = b := by simp [pad32, h]

@[simp] theorem take_pad32 (b : Bytes) : (pad32 b).take b.length = b := by simp [pad32]

/-- What a partial decryption recovers is what was encrypted (43_message_uops R123). -/
theorem decTail_encTail (S : Lanes) (m : Bytes) (h : m.length ≤ 32) :
    (xorBytes (keystream S) (pad32 ((xorBytes (keystream S) (pad32 m)).take m.length))).take m.length
      = m := by
  have hc : ((xorBytes (keystream S) (pad32 m)).take m.length).length = m.length := by
    simp [length_pad32 m h]; omega
  have hp : (pad32 ((xorBytes (keystream S) (pad32 m)).take m.length)).take m.length
      = (xorBytes (keystream S) (pad32 m)).take m.length := by
    have := take_pad32 ((xorBytes (keystream S) (pad32 m)).take m.length)
    rwa [hc] at this
  rw [take_xorBytes, hp, take_xorBytes, take_pad32, xorBytes_xorBytes]
  simp; omega

end Sys2Proof.Machine
end

