-- ==== Sys2Proof/Laws/Memory.lean ====
section
/-! SUPPORT. The laws of memory: a read after a write, and the canonical form. -/

namespace Sys2Proof.Machine

@[simp] theorem Memory.byteAt_nil (a : Nat) : Memory.byteAt [] a = Memory.unlisted := rfl

theorem Memory.byteAt_cons (c : Host.Cell) (m : Memory) (a : Nat) :
    Memory.byteAt (c :: m) a = if a = c.1 then c.2 else Memory.byteAt m a := rfl

/-- An address below every listed one reads as unlisted. -/
theorem Memory.byteAt_of_lt (m : Memory) (a : Nat) (h : ∀ c ∈ m, a < c.1) :
    m.byteAt a = Memory.unlisted := by
  induction m with
  | nil => rfl
  | cons c m ih =>
    have hc := h c (by simp)
    rw [Memory.byteAt_cons, if_neg (by omega), ih fun d hd => h d (by simp [hd])]

/-- Every address listed after a store is the stored one or was listed before. -/
theorem Memory.mem_put {m : Memory} {a : Nat} {b : Byte} {c : Host.Cell} (h : c ∈ m.put a b) :
    (c = (a, b) ∧ b ≠ Memory.unlisted) ∨ c ∈ m := by
  induction m with
  | nil =>
    simp only [Memory.put] at h
    split at h
    · simp at h
    · exact .inl ⟨by simpa using h, ‹_›⟩
  | cons d m ih =>
    obtain ⟨k, v⟩ := d
    simp only [Memory.put] at h
    split_ifs at h with h1 h2 h3 h4
    · exact .inr h
    · rcases List.mem_cons.mp h with h | h
      · exact .inl ⟨h, h2⟩
      · exact .inr h
    · exact .inr (List.mem_cons_of_mem _ h)
    · rcases List.mem_cons.mp h with h | h
      · exact .inl ⟨h, h4⟩
      · exact .inr (List.mem_cons_of_mem _ h)
    · rcases List.mem_cons.mp h with h | h
      · exact .inr (by simp [h])
      · exact (ih h).imp_right (List.mem_cons_of_mem _)

/-- A store keeps the canonical form. -/
theorem Memory.put_wf {m : Memory} (h : m.wf) (a : Nat) (b : Byte) : (m.put a b).wf := by
  refine ⟨?_, fun c hc => ?_⟩
  · induction m with
    | nil => simp only [Memory.put]; split <;> simp
    | cons d m ih =>
      obtain ⟨k, v⟩ := d
      have hm : Memory.wf m := ⟨(List.pairwise_cons.mp h.1).2, fun c hc => h.2 c (by simp [hc])⟩
      have hk := (List.pairwise_cons.mp h.1).1
      simp only [Memory.put]
      split_ifs with h1 h2 h3 h4
      · exact h.1
      · refine List.pairwise_cons.mpr ⟨fun c hc => ?_, h.1⟩
        rcases List.mem_cons.mp hc with rfl | hc
        · exact h1
        · exact Nat.lt_trans h1 (hk c hc)
      · exact hm.1
      · exact List.pairwise_cons.mpr ⟨fun c hc => h3 ▸ hk c hc, hm.1⟩
      · refine List.pairwise_cons.mpr ⟨fun c hc => ?_, ih hm⟩
        rcases Memory.mem_put hc with ⟨rfl, -⟩ | hc
        · show k < a
          omega
        · exact hk c hc
  · rcases Memory.mem_put hc with ⟨rfl, hb⟩ | hc
    · exact hb
    · exact h.2 c hc

/-- Reading one byte after storing one: the stored byte at its address, the old byte elsewhere. -/
theorem Memory.byteAt_put {m : Memory} (h : m.wf) (a x : Nat) (b : Byte) :
    (m.put a b).byteAt x = if x = a then b else m.byteAt x := by
  induction m with
  | nil =>
    simp only [Memory.put]
    split_ifs with h1 h2 <;> simp_all [Memory.byteAt_cons]
  | cons d m ih =>
    obtain ⟨k, v⟩ := d
    have hm : Memory.wf m := ⟨(List.pairwise_cons.mp h.1).2, fun c hc => h.2 c (by simp [hc])⟩
    have hk := (List.pairwise_cons.mp h.1).1
    simp only [Memory.put]
    split_ifs with h1 h2 h3 h4 h5 h6 h7
    · subst h3
      rw [h2]
      refine Memory.byteAt_of_lt _ _ fun c hc => ?_
      rcases List.mem_cons.mp hc with rfl | hc
      · exact h1
      · exact Nat.lt_trans h1 (hk c hc)
    · rfl
    · simp [Memory.byteAt_cons, h4]
    · simp [Memory.byteAt_cons, h4]
    · subst h7
      rw [h6, h5]
      exact Memory.byteAt_of_lt _ _ fun c hc => hk c hc
    · simp_all [Memory.byteAt_cons]
    · simp_all [Memory.byteAt_cons]
    · simp_all [Memory.byteAt_cons]
    · simp only [Memory.byteAt_cons, ih hm]
      split_ifs <;> simp_all
    · simp only [Memory.byteAt_cons, ih hm]
      split_ifs <;> simp_all

/-- A string of stores keeps the canonical form. -/
theorem Memory.putBytes_wf {m : Memory} (h : m.wf) (a : Nat) (bs : Bytes) : (m.putBytes a bs).wf := by
  induction bs generalizing m a with
  | nil => exact h
  | cons b bs ih => exact ih (Memory.put_wf h a b) (a + 1)

/-- A string of stores leaves every address outside the string alone. -/
theorem Memory.byteAt_putBytes_outside {m : Memory} (h : m.wf) (a x : Nat) (bs : Bytes)
    (hx : ¬ inRegion x a bs.length) : (m.putBytes a bs).byteAt x = m.byteAt x := by
  induction bs generalizing m a with
  | nil => rfl
  | cons b bs ih =>
    simp only [inRegion, List.length_cons] at hx
    have := ih (Memory.put_wf h a b) (a + 1) (by simp only [inRegion]; omega)
    rw [Memory.putBytes, this, Memory.byteAt_put h, if_neg (by omega)]

/-- A string of stores puts byte `k` of the string at address `a + k`. -/
theorem Memory.byteAt_putBytes_inside {m : Memory} (h : m.wf) (a k : Nat) (bs : Bytes)
    (hk : k < bs.length) : (m.putBytes a bs).byteAt (a + k) = bs[k] := by
  induction bs generalizing m a k with
  | nil => simp at hk
  | cons b bs ih =>
    rw [Memory.putBytes]
    cases k with
    | zero =>
      rw [Memory.byteAt_putBytes_outside (Memory.put_wf h a b) _ _ _ (by simp [inRegion]),
        Memory.byteAt_put h]
      simp
    | succ k =>
      have := ih (Memory.put_wf h a b) (a + 1) k (by simpa using hk)
      simpa [Nat.add_assoc, Nat.add_comm 1 k] using this

@[simp] theorem Memory.length_bytesAt (m : Memory) (a n : Nat) : (m.bytesAt a n).length = n := by
  induction n generalizing a with
  | zero => rfl
  | succ n ih => simp [Memory.bytesAt, ih]

theorem Memory.getElem_bytesAt (m : Memory) (a n k : Nat) (hk : k < (m.bytesAt a n).length) :
    (m.bytesAt a n)[k] = m.byteAt (a + k) := by
  induction n generalizing a k with
  | zero => simp at hk
  | succ n ih =>
    cases k with
    | zero => rfl
    | succ k =>
      have := ih (a + 1) k (by simpa [Memory.bytesAt] using hk)
      simpa [Memory.bytesAt, Nat.add_assoc, Nat.add_comm 1 k] using this

/-- Two reads agree when the two memories agree on the bytes read. -/
theorem Memory.bytesAt_congr {m m' : Memory} {a n : Nat}
    (h : ∀ x, inRegion x a n → m.byteAt x = m'.byteAt x) : m.bytesAt a n = m'.bytesAt a n := by
  refine List.ext_getElem (by simp) fun k hk hk' => ?_
  rw [Memory.getElem_bytesAt, Memory.getElem_bytesAt]
  exact h _ ⟨by omega, by simpa using hk⟩

/-- A string read back where it was stored. -/
theorem Memory.bytesAt_putBytes_same {m : Memory} (h : m.wf) (a : Nat) (bs : Bytes) :
    (m.putBytes a bs).bytesAt a bs.length = bs := by
  refine List.ext_getElem (by simp) fun k hk hk' => ?_
  rw [Memory.getElem_bytesAt, Memory.byteAt_putBytes_inside h]

/-- A string read away from a store is the old one. -/
theorem Memory.bytesAt_putBytes_apart {m : Memory} (h : m.wf) (a x n : Nat) (bs : Bytes)
    (hx : ¬ overlap x n a bs.length) : (m.putBytes a bs).bytesAt x n = m.bytesAt x n := by
  refine Memory.bytesAt_congr fun y hy => Memory.byteAt_putBytes_outside h _ _ _ ?_
  simp only [overlap, inRegion] at *
  omega

/-- Reading a string in two parts. -/
theorem Memory.bytesAt_add (m : Memory) (a n k : Nat) :
    m.bytesAt a (n + k) = m.bytesAt a n ++ m.bytesAt (a + n) k := by
  induction n generalizing a with
  | zero => simp [Memory.bytesAt]
  | succ n ih => simp [Nat.succ_add, Memory.bytesAt, ih, Nat.add_assoc]

/-- Storing a string in two parts. -/
theorem Memory.putBytes_append (m : Memory) (a : Nat) (bs cs : Bytes) :
    m.putBytes a (bs ++ cs) = (m.putBytes a bs).putBytes (a + bs.length) cs := by
  induction bs generalizing m a with
  | nil => rfl
  | cons b bs ih => simp [Memory.putBytes, ih, Nat.add_assoc, Nat.add_comm 1]

/-- A store inside the space lists no address outside it. -/
theorem Memory.putBytes_within {m : Memory} {top : Nat} (h : ∀ c ∈ m, c.1 < top) {a : Nat}
    {bs : Bytes} (hb : bs = [] ∨ a + bs.length ≤ top) : ∀ c ∈ m.putBytes a bs, c.1 < top := by
  induction bs generalizing m a with
  | nil => exact h
  | cons b bs ih =>
    simp only [List.cons_ne_nil, false_or, List.length_cons] at hb
    refine ih (fun c hc => ?_) (by omega)
    rcases Memory.mem_put hc with ⟨rfl, -⟩ | hc
    · show a < top
      omega
    · exact h c hc

end Sys2Proof.Machine
end

