-- ==== Sys2Proof/Laws/Ops.lean ====
section
/-! SUPPORT. What each shared operation can do, said once. -/

namespace Sys2Proof.Machine

/-! Reads, writes and partial lengths: what they pass on, and when they answer a next state. -/

theorem readThen_of_holds {s : State} {a n : Nat} (h : s.platform.holds a n) (k : Bytes → Result) :
    readThen s a n k = k (s.mem.bytesAt a n) := if_pos h

theorem writeThen_of_holds {s : State} {a : Nat} {bs : Bytes} (h : s.platform.holds a bs.length)
    (k : State → Result) : writeThen s a bs k = k { s with mem := s.mem.putBytes a bs } := if_pos h

theorem partialThen_of_bounds {len pos : Nat} (h : pos < len ∧ len - pos ≤ 31) (k : Nat → Result) :
    partialThen len pos k = k (len - pos) := if_pos h

theorem readThen_next {s t : State} {a n : Nat} {k : Bytes → Result} :
    readThen s a n k = .next t ↔ s.platform.holds a n ∧ k (s.mem.bytesAt a n) = .next t := by
  unfold readThen
  split <;> simp_all

theorem writeThen_next {s t : State} {a : Nat} {bs : Bytes} {k : State → Result} :
    writeThen s a bs k = .next t ↔
      s.platform.holds a bs.length ∧ k { s with mem := s.mem.putBytes a bs } = .next t := by
  unfold writeThen
  split <;> simp_all

theorem partialThen_next {t : State} {len pos : Nat} {k : Nat → Result} :
    partialThen len pos k = .next t ↔ (pos < len ∧ len - pos ≤ 31) ∧ k (len - pos) = .next t := by
  unfold partialThen
  split <;> simp_all

/-- A read passes a refusal on and makes none. -/
theorem readThen_refused {s : State} {a n : Nat} {k : Bytes → Result} {r : Refusal} :
    readThen s a n k = .refused r ↔ s.platform.holds a n ∧ k (s.mem.bytesAt a n) = .refused r := by
  unfold readThen
  split <;> simp_all

/-- A write passes a refusal on and makes none. -/
theorem writeThen_refused {s : State} {a : Nat} {bs : Bytes} {k : State → Result} {r : Refusal} :
    writeThen s a bs k = .refused r ↔
      s.platform.holds a bs.length ∧ k { s with mem := s.mem.putBytes a bs } = .refused r := by
  unfold writeThen
  split <;> simp_all

/-- A host memory move goes on exactly while BUSY = 0, as the move itself does. -/
theorem hostMemory_next {s t : State} {a n : Nat} {move : Result} :
    hostMemory s a n move = .next t ↔ s.statusBusy = false ∧ move = .next t := by
  unfold hostMemory
  split <;> simp_all

/-- While BUSY = 0 a host memory move is the move itself. -/
theorem hostMemory_idle {s : State} (h : s.statusBusy = false) (a n : Nat) (move : Result) :
    hostMemory s a n move = move := by simp [hostMemory, h]

/-- While BUSY = 1 a host memory move is refused; a borrowed region it touches gives the reason. -/
theorem hostMemory_busy {s : State} (h : s.statusBusy = true) (a n : Nat) (move : Result) :
    hostMemory s a n move =
      .refused (if touchesBorrowed s a n then .borrowedRegion else .memoryWhileBusy) := if_pos h

/-- The host stores exactly while BUSY = 0 and inside the space. -/
theorem hostStore_next {s t : State} {a : Nat} {bs : Bytes} :
    hostStore a bs s = .next t ↔
      s.statusBusy = false ∧ s.platform.holds a bs.length ∧
      t = { s with mem := s.mem.putBytes a bs } := by
  simp only [hostStore, hostMemory_next, writeThen_next, Host.Outcome.next.injEq, eq_comm (b := t)]

/-- The host reads memory exactly while BUSY = 0 and inside the space. -/
theorem hostLoad_next {s t : State} {a n : Nat} :
    hostLoad a n s = .next t ↔
      s.statusBusy = false ∧ s.platform.holds a n ∧
      t = { s with seen := .mem a (s.mem.bytesAt a n) :: s.seen } := by
  simp only [hostLoad, hostMemory_next, readThen_next, Host.Outcome.next.injEq, eq_comm (b := t)]

/-! The selector and the decoder. -/

theorem decodeUsel_idle : ∀ d f, decodeUsel (uselWord Phase.idle d f) = .error .unreachablePhase := by
  decide

theorem decodeUsel_load : ∀ d f, decodeUsel (uselWord Phase.load d f) = .ok .uLoad := by decide

theorem decodeUsel_initr : ∀ d f, decodeUsel (uselWord Phase.initr d f) = .ok .uInitr := by decide

theorem decodeUsel_ad : ∀ d f,
    decodeUsel (uselWord Phase.ad d f) = .ok (if f then .uAdfull else .uAdpart) := by decide

theorem decodeUsel_msg : ∀ d f, decodeUsel (uselWord Phase.msg d f) =
    .ok (if d then (if f then .uDecfull else .uDecpart) else (if f then .uEncfull else .uEncpart)) := by
  decide

theorem decodeUsel_finr : ∀ d f, decodeUsel (uselWord Phase.finr d f) = .ok .uFinr := by decide

theorem decodeUsel_tag : ∀ d f,
    decodeUsel (uselWord Phase.tag d f) = .ok (if d then .uTagchk else .uTagout) := by decide

theorem decodeUsel_wipe : ∀ d f, decodeUsel (uselWord Phase.wipe d f) = .ok .uWipe := by decide

theorem decodeUsel_clear : ∀ d f, decodeUsel (uselWord Phase.clear d f) = .ok .uClear := by decide

/-- No selector decodes to a host command. -/
theorem decodeUsel_microOp (w : BitVec 6) (i : Instr) (h : decodeUsel w = .ok i) : i ∈ microOps := by
  have all : ∀ w : BitVec 6, ∀ r ∈ uselRows, decodeUsel w = .ok r.instr → r.instr ∈ microOps := by
    decide
  have rows : ∀ w : BitVec 6, decodeUsel w = .error .unreachablePhase ∨
      ∃ r ∈ uselRows, decodeUsel w = .ok r.instr := by decide
  rcases rows w with hw | ⟨r, hr, hw⟩
  · simp [hw] at h
  · rw [hw] at h
    exact Except.ok.inj h ▸ all w r hr hw

/-- A command word decodes to one of the two commands, by its value. -/
theorem decodeCmd_ok {w : BitVec 32} {i : Instr} (h : decodeCmd w = .ok i) :
    (w = 1 ∧ i = .encrypt) ∨ (w = 2 ∧ i = .decrypt) := by
  have hall : w &&& 0xFFFFFFFF#32 = w := BitVec.and_allOnes
  simp only [decodeCmd, lookupRow, cmdRows, Row.selects, hall, beq_iff_eq] at h
  by_cases h1 : w = 1#32
  · simp [h1] at h
    exact .inl ⟨h1, h.symm⟩
  · by_cases h2 : w = 2#32
    · simp [h2] at h
      exact .inr ⟨h2, h.symm⟩
    · simp [h1, h2] at h

/-- Every other command word is illegal (30_encoding R73). -/
theorem decodeCmd_illegal {w : BitVec 32} (h1 : w ≠ 1) (h2 : w ≠ 2) :
    decodeCmd w = .error .illegalCommandWord := by
  cases h : decodeCmd w with
  | ok i => rcases decodeCmd_ok h with ⟨h, -⟩ | ⟨h, -⟩ <;> contradiction
  | error e => cases e with
    | illegalCommandWord => rfl
    | unreachablePhase =>
      simp only [decodeCmd] at h
      split at h <;> simp at h

/-! A core step, by phase. -/

theorem coreStep_idle {s : State} (h : s.statusBusy = false) : coreStep s = .next s := by
  simp [coreStep, h]

/-- A core step runs the micro-operation its selector decodes to. -/
theorem coreStep_of_decode {s : State} {i : Instr} (hb : s.statusBusy = true)
    (h : decodeUsel (usel s) = .ok i) : coreStep s = exec i s := by
  simp [coreStep, hb, h]

variable {s : State}

theorem usel_load (h : s.phase = Phase.load) : decodeUsel (usel s) = .ok .uLoad := by
  simp only [usel, h]; exact decodeUsel_load _ _

theorem usel_initr (h : s.phase = Phase.initr) : decodeUsel (usel s) = .ok .uInitr := by
  simp only [usel, h]; exact decodeUsel_initr _ _

theorem usel_ad (h : s.phase = Phase.ad) : decodeUsel (usel s) =
    .ok (if 32 ≤ s.adLen - s.adpos then .uAdfull else .uAdpart) := by
  simp only [usel, h, decodeUsel_ad, fullBit, if_true, decide_eq_true_eq]

theorem usel_msg (h : s.phase = Phase.msg) : decodeUsel (usel s) =
    .ok (if s.dir then (if 32 ≤ s.msgLen - s.mpos then .uDecfull else .uDecpart)
      else (if 32 ≤ s.msgLen - s.mpos then .uEncfull else .uEncpart)) := by
  have : Phase.msg ≠ Phase.ad := by decide
  simp only [usel, h, decodeUsel_msg, fullBit, if_true, if_neg this, decide_eq_true_eq]

theorem usel_finr (h : s.phase = Phase.finr) : decodeUsel (usel s) = .ok .uFinr := by
  simp only [usel, h]; exact decodeUsel_finr _ _

theorem usel_tag (h : s.phase = Phase.tag) :
    decodeUsel (usel s) = .ok (if s.dir then .uTagchk else .uTagout) := by
  simp only [usel, h]; exact decodeUsel_tag _ _

theorem usel_wipe (h : s.phase = Phase.wipe) : decodeUsel (usel s) = .ok .uWipe := by
  simp only [usel, h]; exact decodeUsel_wipe _ _

theorem usel_clear (h : s.phase = Phase.clear) : decodeUsel (usel s) = .ok .uClear := by
  simp only [usel, h]; exact decodeUsel_clear _ _

/-- The selector depends on the sequencing state and the two lengths only (10_state R23). -/
theorem usel_congr {s t : State} (hp : s.phase = t.phase) (hd : s.dir = t.dir)
    (ha : s.adpos = t.adpos) (hm : s.mpos = t.mpos) (hal : s.adLen = t.adLen)
    (hml : s.msgLen = t.msgLen) : usel s = usel t := by
  simp [usel, fullBit, hp, hd, ha, hm, hal, hml]

/-! Runs. -/

theorem coreSteps_succ {n : Nat} {s t : State} (h : coreStep s = .next t) :
    coreSteps (n + 1) s = coreSteps n t := by simp [coreSteps, h]

theorem coreSteps_add {n : Nat} {s t : State} (h : coreSteps n s = .next t) (k : Nat) :
    coreSteps (n + k) s = coreSteps k t := by
  induction n generalizing s with
  | zero =>
    simp only [coreSteps, Host.Outcome.next.injEq] at h
    rw [Nat.zero_add, h]
  | succ n ih =>
    rw [Nat.succ_add]
    simp only [coreSteps] at h ⊢
    split at h <;> simp_all

end Sys2Proof.Machine
end

