-- ==== Sys2Proof/Laws/Exec.lean ====
section
/-! SUPPORT. One lemma per instruction: exactly when its meaning answers a next state, and which. -/

namespace Sys2Proof.Machine

variable {s t : State}

theorem exec_encrypt_next : exec .encrypt s = .next t ↔ t = commandWrite false s := by
  simp [exec, execEncrypt, eq_comm]

theorem exec_decrypt_next : exec .decrypt s = .next t ↔ t = commandWrite true s := by
  simp [exec, execDecrypt, eq_comm]

theorem exec_uLoad_next : exec .uLoad s = .next t ↔
    (s.platform.holds s.keyAddr 32 ∧ s.platform.holds s.nonceAddr 16) ∧
    t = { s with
      lanes := initLanes (s.mem.bytesAt s.keyAddr 32) (s.mem.bytesAt s.nonceAddr 16)
      rc := 0, phase := Phase.initr } := by
  simp only [exec, execULoad, readThen_next, Host.Outcome.next.injEq, eq_comm (b := t), and_assoc]

theorem exec_uInitr_next : exec .uInitr s = .next t ↔
    t = finishRound (afterInit s) { s with lanes := update s.lanes z0 z1 } := by
  simp only [exec, execUInitr, Host.Outcome.next.injEq, eq_comm (b := t)]

theorem exec_uAdfull_next : exec .uAdfull s = .next t ↔
    s.platform.holds (adChunkAddr s) 32 ∧
    t = { s with
      lanes := absorb s.lanes (s.mem.bytesAt (adChunkAddr s) 32), adpos := s.adpos + 32
      phase := afterAD s (s.adpos + 32) } := by
  simp only [exec, execUAdfull, readThen_next, Host.Outcome.next.injEq, eq_comm (b := t)]

theorem exec_uAdpart_next : exec .uAdpart s = .next t ↔
    (s.adpos < s.adLen ∧ s.adLen - s.adpos ≤ 31) ∧
    s.platform.holds (adChunkAddr s) (s.adLen - s.adpos) ∧
    t = { s with
      lanes := absorb s.lanes (pad32 (s.mem.bytesAt (adChunkAddr s) (s.adLen - s.adpos)))
      adpos := s.adLen, phase := afterAD s s.adLen } := by
  simp only [exec, execUAdpart, partialThen_next, readThen_next, Host.Outcome.next.injEq,
    eq_comm (b := t)]

/-- The 32 bytes a full message step writes (43_message_uops R120, R122). -/
def fullOut (s : State) : Bytes := xorBytes (keystream s.lanes) (s.mem.bytesAt (srcChunkAddr s) 32)

@[simp] theorem length_fullOut (s : State) : (fullOut s).length = 32 := by simp [fullOut]

/-- The input of a partial message step, zero-padded (43_message_uops R121, R123). -/
def partIn (s : State) : Bytes := pad32 (s.mem.bytesAt (srcChunkAddr s) (s.msgLen - s.mpos))

/-- The bytes a partial message step writes (43_message_uops R121, R123). -/
def partOut (s : State) : Bytes :=
  (xorBytes (keystream s.lanes) (partIn s)).take (s.msgLen - s.mpos)

theorem length_partOut (s : State) (h : s.msgLen - s.mpos ≤ 31) :
    (partOut s).length = s.msgLen - s.mpos := by
  simp [partOut, partIn, length_pad32 _ (show (s.mem.bytesAt _ (s.msgLen - s.mpos)).length ≤ 32 by
    simp; omega)]
  omega

theorem exec_uEncfull_next : exec .uEncfull s = .next t ↔
    (s.platform.holds (srcChunkAddr s) 32 ∧ s.platform.holds (dstChunkAddr s) 32) ∧
    t = { s with
      mem := s.mem.putBytes (dstChunkAddr s) (fullOut s)
      lanes := absorb s.lanes (s.mem.bytesAt (srcChunkAddr s) 32), mpos := s.mpos + 32
      phase := afterMSG s (s.mpos + 32) } := by
  have := length_fullOut s
  unfold fullOut at this
  simp only [exec, execUEncfull, readThen_next, writeThen_next, Host.Outcome.next.injEq,
    eq_comm (b := t), and_assoc, this, fullOut]

theorem exec_uDecfull_next : exec .uDecfull s = .next t ↔
    (s.platform.holds (srcChunkAddr s) 32 ∧ s.platform.holds (dstChunkAddr s) 32) ∧
    t = { s with
      mem := s.mem.putBytes (dstChunkAddr s) (fullOut s)
      lanes := absorb s.lanes (fullOut s), mpos := s.mpos + 32
      phase := afterMSG s (s.mpos + 32) } := by
  have := length_fullOut s
  unfold fullOut at this
  simp only [exec, execUDecfull, readThen_next, writeThen_next, Host.Outcome.next.injEq,
    eq_comm (b := t), and_assoc, this, fullOut]

theorem exec_uEncpart_next : exec .uEncpart s = .next t ↔
    (s.mpos < s.msgLen ∧ s.msgLen - s.mpos ≤ 31) ∧
    (s.platform.holds (srcChunkAddr s) (s.msgLen - s.mpos) ∧
      s.platform.holds (dstChunkAddr s) (s.msgLen - s.mpos)) ∧
    t = { s with
      mem := s.mem.putBytes (dstChunkAddr s) (partOut s)
      lanes := absorb s.lanes (partIn s), mpos := s.msgLen, phase := Phase.finr } := by
  simp only [exec, execUEncpart, partialThen_next, readThen_next, writeThen_next,
    Host.Outcome.next.injEq, eq_comm (b := t)]
  refine and_congr_right fun h => ?_
  have := length_partOut s h.2
  unfold partOut partIn at this
  simp only [this, partOut, partIn, and_assoc]

theorem exec_uDecpart_next : exec .uDecpart s = .next t ↔
    (s.mpos < s.msgLen ∧ s.msgLen - s.mpos ≤ 31) ∧
    (s.platform.holds (srcChunkAddr s) (s.msgLen - s.mpos) ∧
      s.platform.holds (dstChunkAddr s) (s.msgLen - s.mpos)) ∧
    t = { s with
      mem := s.mem.putBytes (dstChunkAddr s) (partOut s)
      lanes := absorb s.lanes (pad32 (partOut s)), mpos := s.msgLen, phase := Phase.finr } := by
  simp only [exec, execUDecpart, decTail, partialThen_next, readThen_next, writeThen_next,
    Host.Outcome.next.injEq, eq_comm (b := t)]
  refine and_congr_right fun h => ?_
  have := length_partOut s h.2
  unfold partOut partIn at this
  simp only [this, partOut, partIn, and_assoc]

theorem exec_uFinr_next : exec .uFinr s = .next t ↔
    (s.adLen < 2 ^ 125 ∧ s.msgLen < 2 ^ 125) ∧
    t = finishRound Phase.tag
      { s with lanes := update s.lanes (lenBlock s.adLen) (lenBlock s.msgLen) } := by
  simp only [exec, execUFinr]
  split <;> simp_all [eq_comm]

theorem exec_uTagout_next : exec .uTagout s = .next t ↔
    s.platform.holds s.tagAddr 16 ∧
    t = { s with
      mem := s.mem.putBytes s.tagAddr (blockBytes (tagOf s.lanes)), phase := Phase.clear } := by
  simp only [exec, execUTagout, writeThen_next, length_blockBytes, Host.Outcome.next.injEq,
    eq_comm (b := t)]

theorem exec_uTagchk_next : exec .uTagchk s = .next t ↔
    s.platform.holds s.tagAddr 16 ∧
    t = if tagDiff (tagOf s.lanes) (blockOfBytes (s.mem.bytesAt s.tagAddr 16)) = 0
      then { s with phase := Phase.clear } else { raiseAuthFail s with phase := Phase.wipe } := by
  simp only [exec, execUTagchk, readThen_next, Config.tagLen]
  refine and_congr_right fun _ => ?_
  split <;> simp_all [eq_comm]

theorem exec_uWipe_next : exec .uWipe s = .next t ↔
    s.platform.holds s.dstAddr s.msgLen ∧
    t = { s with
      mem := s.mem.putBytes s.dstAddr (List.replicate s.msgLen wipeByte)
      phase := Phase.clear } := by
  simp only [exec, execUWipe, writeThen_next, List.length_replicate, Host.Outcome.next.injEq,
    eq_comm (b := t)]

theorem exec_uClear_next : exec .uClear s = .next t ↔
    t = { s with
      lanes := Lanes.zero, rc := 0, adpos := 0, mpos := 0, dir := false
      statusBusy := false, statusDone := true, phase := Phase.idle } := by
  simp only [exec, execUClear, Host.Outcome.next.injEq, eq_comm (b := t)]

/-! A CMD write, while busy and while idle. -/

theorem commandWrite_busy (d : Bool) (h : s.statusBusy = true) :
    commandWrite d s = noteWbusy s := by simp [commandWrite, h]

theorem commandWrite_idle (d : Bool) (h : s.statusBusy = false) :
    commandWrite d s = checkAndStart d (clearResult s) := by simp [commandWrite, h]

/-- A command either starts, all checks passed, or is refused with the code of the first failing one. -/
theorem checkAndStart_cases (d : Bool) (s : State) :
    (s.accepts d ∧ checkAndStart d s = start d s) ∨
    (¬ rangeOK d s ∧ checkAndStart d s = refuse errRange s) ∨
    (rangeOK d s ∧ ¬ overlapOK d s ∧ checkAndStart d s = refuse errOverlap s) ∨
    (rangeOK d s ∧ overlapOK d s ∧ ¬ accessOK d s ∧ checkAndStart d s = refuse errAccess s) := by
  unfold checkAndStart State.accepts
  by_cases h1 : rangeOK d s
  · by_cases h2 : overlapOK d s
    · by_cases h3 : accessOK d s
      · exact .inl ⟨⟨h1, h2, h3⟩, by rw [if_neg (by simpa using h1), if_neg (by simpa using h2),
          if_neg (by simpa using h3)]⟩
      · exact .inr (.inr (.inr ⟨h1, h2, h3, by rw [if_neg (by simpa using h1),
          if_neg (by simpa using h2), if_pos h3]⟩))
    · exact .inr (.inr (.inl ⟨h1, h2, by rw [if_neg (by simpa using h1), if_pos h2]⟩))
  · exact .inr (.inl ⟨h1, by rw [if_pos h1]⟩)

/-- The checks read the descriptor registers and the platform only. -/
theorem regions_congr {s t : State} (h : s.descriptors = t.descriptors) (d : Bool) :
    regions d s = regions d t := by
  obtain ⟨h1, h2, h3, h4, h5, h6, h7, h8⟩ := (descriptors_eq_iff s t).mp h
  simp [regions, h1, h2, h3, h4, h5, h6, h7, h8]

theorem accepts_congr {s t : State} (h : s.descriptors = t.descriptors)
    (hp : s.platform = t.platform) (d : Bool) : s.accepts d ↔ t.accepts d := by
  simp only [State.accepts, rangeOK, overlapOK, accessOK, regions_congr h, hp]

/-- No meaning refuses: an instruction goes on or stops in a named fault. -/
theorem exec_never_refuses (i : Instr) (s : State) (r : Refusal) : exec i s ≠ .refused r := by
  cases i <;>
    simp only [exec, execEncrypt, execDecrypt, execULoad, execUInitr, execUAdfull, execUAdpart,
      execUEncfull, execUEncpart, execUDecfull, execUDecpart, execUFinr, execUTagout, execUTagchk,
      execUWipe, execUClear, partialThen, readThen, writeThen] <;>
    (repeat' split) <;> simp

end Sys2Proof.Machine
end

