-- ==== Sys2Proof/Laws/Invariant.lean ====
section
/-! SUPPORT. What the invariant gives a running command: its phase, its regions, its lengths, and the
micro-operation its next step runs. -/

namespace Sys2Proof.Machine

variable {s t : State}

/-- The eight phases of a running command (10_state R42 (a), (f)). -/
theorem phase_cases : ∀ p : Phase, p ≠ 0 → p ≤ 8 →
    p = 1 ∨ p = 2 ∨ p = 3 ∨ p = 4 ∨ p = 5 ∨ p = 6 ∨ p = 7 ∨ p = 8 := by decide

/-- The range check, region by region as the accesses need it (45_commands R145). -/
theorem holds_of_rangeOK {d : Bool} (h : rangeOK d s = true) :
    s.platform.holds s.keyAddr 32 ∧ s.platform.holds s.nonceAddr 16 ∧
    s.platform.holds s.adAddr s.adLen ∧ s.platform.holds s.srcAddr s.msgLen ∧
    s.platform.holds s.dstAddr s.msgLen ∧ s.platform.holds s.tagAddr 16 := by
  unfold rangeOK at h
  rw [decide_eq_true_eq] at h
  simpa only [regions, List.forall_mem_cons, List.not_mem_nil, false_imp_iff, implies_true, and_true,
    Config.keyLen, Config.nonceLen, Config.tagLen] using h

/-- A part of a region lies in the space. -/
theorem holds_part {p : Platform} {a n b k : Nat} (h : p.holds a n) (hk : 0 < k) (hl : a ≤ b)
    (hu : b + k ≤ a + n) : p.holds b k := by
  unfold Platform.holds at *
  omega

/-- The two lengths stay below 2^125, where LenBlock is defined (44_finalize_uops R136). -/
theorem State.Inv.lengths (h : s.Inv) : s.adLen < 2 ^ 125 ∧ s.msgLen < 2 ^ 125 := by
  obtain ⟨-, -, -, -, -, -, -, hr, -⟩ := h
  have hw : 2 ^ s.platform.aw ≤ 2 ^ 125 := Nat.pow_le_pow_right (by decide) s.platform.awMax
  simp only [State.registersFit, List.forall_mem_cons] at hr
  exact ⟨hr.2.2.2.1.trans_le hw, hr.2.2.2.2.2.2.1.trans_le hw⟩

/-- A store inside the space keeps memory in form and inside the space. -/
theorem memoryFits_putBytes (hm : s.memoryFits) {a : Nat} {bs : Bytes}
    (hb : s.platform.holds a bs.length) (ht : t.mem = s.mem.putBytes a bs)
    (hp : t.platform = s.platform) : t.memoryFits := by
  unfold State.memoryFits at *
  rw [ht, hp]
  refine ⟨Memory.putBytes_wf hm.1 _ _, Memory.putBytes_within hm.2 ?_⟩
  rcases hb with h | h
  · exact .inl (List.length_eq_zero_iff.mp h)
  · exact .inr h

/-- A step of a running command is the meaning of the instruction its selector decodes to. -/
theorem coreStep_next (hb : s.statusBusy = true) (h : coreStep s = .next t) :
    ∃ i, decodeUsel (usel s) = .ok i ∧ exec i s = .next t := by
  unfold coreStep at h
  rw [if_pos hb] at h
  cases hd : decodeUsel (usel s) with
  | error e => simp [hd] at h
  | ok i => exact ⟨i, rfl, by simpa only [hd] using h⟩

/-- A CMD write leaves lanes, descriptors, memory and what is around the block. -/
theorem commandWrite_frame (d : Bool) (s : State) :
    (commandWrite d s).descriptors = s.descriptors ∧ (commandWrite d s).outside = s.outside ∧
    (commandWrite d s).mem = s.mem ∧ (commandWrite d s).lanes = s.lanes := by
  cases hb : s.statusBusy
  · rw [commandWrite_idle d hb]
    rcases checkAndStart_cases d (clearResult s) with h | h | h | h
    · rw [h.2]; exact ⟨rfl, rfl, rfl, rfl⟩
    · rw [h.2]; exact ⟨rfl, rfl, rfl, rfl⟩
    · rw [h.2.2]; exact ⟨rfl, rfl, rfl, rfl⟩
    · rw [h.2.2.2]; exact ⟨rfl, rfl, rfl, rfl⟩
  · rw [commandWrite_busy d hb]; exact ⟨rfl, rfl, rfl, rfl⟩

/-- Memory lists nothing after reset. -/
theorem reset_mem_wf : State.reset.mem.wf := by decide

end Sys2Proof.Machine
end

