-- ==== Sys2Proof/Laws/PerInstr.lean ====
section
/-! SUPPORT. Statements for all instructions, one lemma per constructor. -/

namespace Sys2Proof.Laws.TableRow

/-- The instruction has exactly one row in the two opcode tables (30_encoding R87). -/
def Statement (i : Instr) : Prop :=
  (cmdRows.map Row.instr ++ uselRows.map Row.instr).count i = 1

theorem encrypt : Statement .encrypt := rfl
theorem decrypt : Statement .decrypt := rfl
theorem uLoad : Statement .uLoad := rfl
theorem uInitr : Statement .uInitr := rfl
theorem uAdfull : Statement .uAdfull := rfl
theorem uAdpart : Statement .uAdpart := rfl
theorem uEncfull : Statement .uEncfull := rfl
theorem uEncpart : Statement .uEncpart := rfl
theorem uDecfull : Statement .uDecfull := rfl
theorem uDecpart : Statement .uDecpart := rfl
theorem uFinr : Statement .uFinr := rfl
theorem uTagout : Statement .uTagout := rfl
theorem uTagchk : Statement .uTagchk := rfl
theorem uWipe : Statement .uWipe := rfl
theorem uClear : Statement .uClear := rfl

end Sys2Proof.Laws.TableRow
end

