-- ==== Sys2Proof/Tests/Slice0.lean ====
section
/-! SUPPORT. Tests: ill-formed terms, words written out, single steps with values of spec/95_test_vectors.md,
and the witnesses of the obligations' hypotheses. -/

set_option Elab.async false

namespace Sys2Proof.Tests

open Sys2Proof.Machine

/-- What a next state says, and `none` for a stop. -/
def after {α : Type} (r : Result) (f : State → α) : Option α :=
  match r with
  | .next t => some (f t)
  | .fault _ | .refused _ => none

/-! ## Ill-formed terms (each check of WellFormed refuses one) -/

theorem test_wf_all_instr : ∀ i ∈ Instr.encrypt :: Instr.decrypt :: microOps, i.wellFormed = true := by
  decide

theorem test_wf_write_no_register :
    HostAction.wellFormed .vectors (.write 11 0) = false ∧
    HostAction.wellFormed .vectors (.write 10 0) = true := by decide

theorem test_wf_read_no_register :
    HostAction.wellFormed .vectors (.read 15) = false ∧
    HostAction.wellFormed .vectors (.read 0) = true := by decide

/-- R30: any value may be written, the bits above the register are dropped. -/
theorem test_wf_any_value : HostAction.wellFormed .vectors (.write 2 (2 ^ 64 + 5)) = true ∧
    after (hostWrite 2 (2 ^ 64 + 5) State.reset) (·.keyAddr) = some 5 := by decide

theorem test_wf_store_outside :
    HostAction.wellFormed .vectors (.store (2 ^ 64 - 1) [1, 2]) = false ∧
    HostAction.wellFormed .vectors (.store (2 ^ 64 - 2) [1, 2]) = true := by decide

theorem test_wf_load_outside :
    HostAction.wellFormed .vectors (.load (2 ^ 64) 1) = false ∧
    HostAction.wellFormed .vectors (.load (2 ^ 64 - 1) 1) = true ∧
    HostAction.wellFormed .vectors (.load (2 ^ 64) 0) = true := by decide

/-! ## Decoding: the words of 30_encoding R72 and R77, bit by bit, one per constructor and don't-care value -/

theorem test_decode_encrypt :
    decodeTableWord 32 0b00000000000000000000000000000001 = some .encrypt := by decide
theorem test_decode_decrypt :
    decodeTableWord 32 0b00000000000000000000000000000010 = some .decrypt := by decide
theorem test_decode_uLoad : [0b000100, 0b000101, 0b000110, 0b000111].map (decodeTableWord 8) =
    List.replicate 4 (some .uLoad) := by decide
theorem test_decode_uInitr : [0b001000, 0b001001, 0b001010, 0b001011].map (decodeTableWord 8) =
    List.replicate 4 (some .uInitr) := by decide
theorem test_decode_uAdfull : [0b001101, 0b001111].map (decodeTableWord 8) =
    List.replicate 2 (some .uAdfull) := by decide
theorem test_decode_uAdpart : [0b001100, 0b001110].map (decodeTableWord 8) =
    List.replicate 2 (some .uAdpart) := by decide
theorem test_decode_uEncfull : decodeTableWord 8 0b010001 = some .uEncfull := by decide
theorem test_decode_uEncpart : decodeTableWord 8 0b010000 = some .uEncpart := by decide
theorem test_decode_uDecfull : decodeTableWord 8 0b010011 = some .uDecfull := by decide
theorem test_decode_uDecpart : decodeTableWord 8 0b010010 = some .uDecpart := by decide
theorem test_decode_uFinr : [0b010100, 0b010101, 0b010110, 0b010111].map (decodeTableWord 8) =
    List.replicate 4 (some .uFinr) := by decide
theorem test_decode_uTagout : [0b011000, 0b011001].map (decodeTableWord 8) =
    List.replicate 2 (some .uTagout) := by decide
theorem test_decode_uTagchk : [0b011010, 0b011011].map (decodeTableWord 8) =
    List.replicate 2 (some .uTagchk) := by decide
theorem test_decode_uWipe : [0b011100, 0b011101, 0b011110, 0b011111].map (decodeTableWord 8) =
    List.replicate 4 (some .uWipe) := by decide
theorem test_decode_uClear : [0b100000, 0b100001, 0b100010, 0b100011].map (decodeTableWord 8) =
    List.replicate 4 (some .uClear) := by decide

/-- Command words with OPC 0, OPC 3 and OPC 0xFF, and legal opcodes with a reserved bit set (R73). -/
theorem test_decode_illegal_commands :
    [0x00000000, 0x00000003, 0x000000FF, 0x00000101, 0x80000002].map (decodeTableWord 32) =
      List.replicate 5 none := by decide

/-- PHASE 0 and PHASE 9 to 15 are no micro-operation (R79). -/
theorem test_decode_unreachable :
    [0b000000, 0b000011, 0b100100, 0b111111].map (decodeTableWord 8) = List.replicate 4 none := by
  decide

/-! ## The datapath (95_test_vectors) -/

/-- A Block from its 32 hex digits in address order, the left pair being byte 0 (00_scope R12). -/
def hexBlock (v : Nat) : Block :=
  blockOfBytes ((List.range 16).map fun k => BitVec.ofNat 8 (v >>> (8 * (15 - k))))

/-- T1: FIPS-197 appendix B, round 1. -/
theorem test_aesRound_fips : aesRound (hexBlock 0x193de3bea0f4e22b9ac68d2ae9f84808)
    (hexBlock 0xa0fafe1788542cb123a339392a6c7605) = hexBlock 0xa49c7ff2689f352b6b5bea43026a5049 := by
  decide +kernel

/-- T3: the arguments do not commute. -/
theorem test_aesRound_swapped : aesRound (hexBlock 0x101112131415161718191a1b1c1d1e1f)
    (hexBlock 0x000102030405060708090a0b0c0d0e0f) = hexBlock 0x0644952683a74b4e874781715ae87430 := by
  decide +kernel

/-- T5. -/
theorem test_shiftRows : shiftRows (hexBlock 0x000102030405060708090a0b0c0d0e0f) =
    hexBlock 0x00050a0f04090e03080d02070c01060b := by decide +kernel

/-- T6. -/
theorem test_mixColumns : mixColumns (hexBlock 0xdb135345f20a225c01010101c6c6c6c6) =
    hexBlock 0x8e4da1bc9fdc589d01010101c6c6c6c6 := by decide +kernel

/-- T7, T8. -/
theorem test_bytes : mul2 0x80 = 0x1b ∧ mul2 0xff = 0xe5 ∧ mul3 0x57 = 0xf9 ∧
    [0x00, 0x01, 0x10, 0x53, 0x80, 0xff].map sbox = [0x63, 0x7c, 0xca, 0xed, 0xcd, 0x16] := by decide

/-- The lanes of T10: byte j of lane i is 0x10 * i + j. -/
def lanesT10 : Lanes :=
  let lane := fun i => blockOfBytes ((List.range 16).map fun j => BitVec.ofNat 8 (0x10 * i + j))
  ⟨lane 0, lane 1, lane 2, lane 3, lane 4, lane 5, lane 6, lane 7⟩

/-- T10. -/
theorem test_update : update lanesT10 (hexBlock 0x808182838485868788898a8b8c8d8e8f)
      (hexBlock 0x909192939495969798999a9b9c9d9e9f) =
    ⟨hexBlock 0xf0f0f0f0f0f0f0f0f0f0f0f0f0f0f0f0, hexBlock 0x1a1b2e3658184526c8a0271a5be15f23,
      hexBlock 0x70707070707070707070707070707070, hexBlock 0xd4f974219b078d955ce4848fe47e6f7f,
      hexBlock 0xa0a0a0a0a0a0a0a0a0a0a0a0a0a0a0a0, hexBlock 0xc20175837a33663a2e6228591954eee0,
      hexBlock 0x88e7c071f7ed317513e0810f384fe783, hexBlock 0x60606060606060606060606060606060⟩ := by
  decide +kernel

/-- T11. -/
theorem test_keystream : keystream lanesT10 =
    blockBytes (hexBlock 0x5614c576d3f71b1ed717d1210ab82460) ++
    blockBytes (hexBlock 0x29282b2a2d2c2f2e2120232225242726) := by decide +kernel

/-- T50, T51, T52. -/
theorem test_length_and_tag : lenBlock 33 = hexBlock 0x08010000000000000000000000000000 ∧
    lenBlock (2 ^ 64 - 1) = hexBlock 0xf8ffffffffffffff0700000000000000 ∧ tagOf lanesT10 = 0 ∧
    tagDiff 0 (hexBlock 1) = 1 ∧ tagDiff (hexBlock (0x0102 <<< 112)) 0 = 3 := by decide +kernel

/-! ## Single steps -/

/-- Some descriptors with regions of every kind, all apart; DST lies after SRC. -/
def mapped : State :=
  { State.reset with
    keyAddr := 0x100, nonceAddr := 0x200, adAddr := 0x300, adLen := 33, srcAddr := 0x400
    dstAddr := 0x500, msgLen := 33, tagAddr := 0x600 }

/-- `mapped` in the middle of a command. -/
def running (d : Bool) (p : Phase) (ad msg : Nat) : State :=
  { mapped with dir := d, phase := p, adpos := ad, mpos := msg, statusBusy := true }

/-- `running` in the wipe, or in CLEAR after it. -/
def failed (p : Phase) : State := { running true p 33 33 with statusCode := 1 }

/-- Whether an outcome is a next state. -/
def goesOn (r : Result) : Bool := (after r fun _ => ()).isSome

/-- An outcome that goes on has its next state. -/
theorem goesOn_next {r : Result} (h : goesOn r = true) : ∃ t, r = .next t := by
  cases r with
  | next t => exact ⟨t, rfl⟩
  | fault f => exact absurd h (by simp [goesOn, after])
  | refused f => exact absurd h (by simp [goesOn, after])

/-- T20, the key byte k being k and the nonce a0 to af. -/
theorem test_uLoad : after (exec .uLoad { running false Phase.load 0 0 with
      mem := (Memory.putBytes [] 0x100 ((List.range 32).map (BitVec.ofNat 8 ·))).putBytes 0x200
        ((List.range 16).map (BitVec.ofNat 8 <| 0xa0 + ·)) }) (fun t => (t.lanes, t.phase)) =
    some (⟨hexBlock 0x101112131415161718191a1b1c1d1e1f, hexBlock 0xa0a1a2a3a4a5a6a7a8a9aaabacadaeaf,
      hexBlock 0xcd65ef239144377122ae28d7982f8a42, hexBlock 0xbcdb8981a5dbb5e92f3b4deccffbc0b5,
      hexBlock 0xb0b0b0b0b0b0b0b0b0b0b0b0b0b0b0b0, 0,
      hexBlock 0x000102030405060708090a0b0c0d0e0f, 0⟩, Phase.initr) := by decide +kernel

/-- T21: one round after the all-zero key and nonce; RC counts and PHASE stays. -/
theorem test_uInitr : after (exec .uInitr { running false Phase.initr 0 0 with
      lanes := ⟨0, 0, z0, z1, 0, 0, 0, 0⟩ }) (fun t => (t.lanes.s3, t.lanes.s5, t.rc, t.phase)) =
    some (hexBlock 0x54fbbaab76f6f34e7e60dd39cf673601, hexBlock 0xdfb8eae2c6b8d68a4c582e8fac98a3d6,
      1, Phase.initr) := by decide +kernel

/-- R111: round 19 ends the phase. -/
theorem test_uInitr_last : after (exec .uInitr { running false Phase.initr 0 0 with rc := 19 })
    (fun t => (t.rc, t.phase)) = some (0, Phase.ad) := by decide +kernel

/-- T21 after the 20 rounds. -/
def lanesT21 : Lanes :=
  ⟨hexBlock 0x8d45bce7ee7dcb9bb85c59f6b3c88706, hexBlock 0xf1a3d040a2c2e53bb71e285b972b0bb5,
    hexBlock 0xafbec4c0bdfbc24277dce5fefd7d6463, hexBlock 0x2ef8ea5464f45978f28e1bf51354820e,
    hexBlock 0x70be70cc356fde6710316dbb87e35f7a, hexBlock 0x9877f02d54eae390bbde691745574fb3,
    hexBlock 0xec5049c42f8a3984a4cd516f859b89f0, hexBlock 0x4ff274da135e41e0ebb66e3d6c944ef9⟩

/-- T30: 32 zero bytes; one byte is left. -/
theorem test_uAdfull : after (exec .uAdfull { running false Phase.ad 0 0 with lanes := lanesT21 })
    (fun t => (t.lanes.s1, t.lanes.s7, t.adpos, t.phase)) =
    some (hexBlock 0x4b63ead71e4faaf661aa1c2c5946b5bb, hexBlock 0x6115f523c1f7f21f1c91089936530ef6,
      32, Phase.ad) := by decide +kernel

/-- T31: "associated data"; the byte after the buffer is not read. -/
theorem test_uAdpart : after (exec .uAdpart { running false Phase.ad 0 0 with
      lanes := lanesT21, adLen := 15
      mem := Memory.putBytes [] 0x300 [0x61, 0x73, 0x73, 0x6f, 0x63, 0x69, 0x61, 0x74, 0x65, 0x64,
        0x20, 0x64, 0x61, 0x74, 0x61, 0xff] })
    (fun t => (t.lanes.s0, t.lanes.s4, t.adpos, t.phase)) =
    some (hexBlock 0x2e8107b5703720948ed24e590de02ff9, hexBlock 0x2ef8ea5464f45978f28e1bf51354820e,
      15, Phase.msg) := by decide +kernel

/-- T40: bytes 00 to 1f, in place. -/
theorem test_uEncfull : after (exec .uEncfull { running false Phase.msg 33 0 with
      lanes := lanesT21, dstAddr := 0x400
      mem := Memory.putBytes [] 0x400 ((List.range 32).map (BitVec.ofNat 8 ·)) })
    (fun t => (t.mem.bytesAt 0x400 32, t.lanes.s0, t.lanes.s4, t.mpos, t.phase)) =
    some (blockBytes (hexBlock 0x4f147a769045e09260f5e6a2bc8f219e) ++
        blockBytes (hexBlock 0x5f4a4bde147d9b21039391797a6ee1df),
      hexBlock 0x4ff376d9175b47e7e3bf6436609940f6, hexBlock 0x3ee9f84770e14f6fea9701ee0f499c11,
      32, Phase.msg) := by decide +kernel

/-- The lanes after T40. -/
def lanesT40 : Lanes :=
  ⟨hexBlock 0x4ff376d9175b47e7e3bf6436609940f6, hexBlock 0x4b63ead71e4faaf661aa1c2c5946b5bb,
    hexBlock 0x1df399848d48dcbf13d3793412b08245, hexBlock 0x304f19f03ed04a1f6c066ee448ec6daf,
    hexBlock 0x3ee9f84770e14f6fea9701ee0f499c11, hexBlock 0x897c1e9c85f650479a10f6e123c9244b,
    hexBlock 0xfa90efa20e3a8335de827f89bebfedd7, hexBlock 0x6115f523c1f7f21f1c91089936530ef6⟩

/-- T41: one byte; the byte after it keeps its value. -/
theorem test_uEncpart : after (exec .uEncpart { running false Phase.msg 33 32 with
      lanes := lanesT40, mem := (Memory.put [] 0x420 0x20).put 0x521 0x77 })
    (fun t => (t.mem.bytesAt 0x520 2, t.lanes.s0, t.lanes.s5, t.mpos, t.phase)) =
    some ([0x35, 0x77], hexBlock 0x4115f523c1f7f21f1c91089936530ef6,
      hexBlock 0xa21036a66153cfe1dd9cb3472a196eff, 33, Phase.finr) := by decide +kernel

/-- T42: the ciphertext of T40 gives its plaintext and its lanes. -/
theorem test_uDecfull : after (exec .uDecfull { running true Phase.msg 33 0 with
      lanes := lanesT21
      mem := Memory.putBytes [] 0x400 (blockBytes (hexBlock 0x4f147a769045e09260f5e6a2bc8f219e) ++
        blockBytes (hexBlock 0x5f4a4bde147d9b21039391797a6ee1df)) })
    (fun t => (t.mem.bytesAt 0x500 32, t.lanes)) =
    some ((List.range 32).map (BitVec.ofNat 8 ·), lanesT40) := by decide +kernel

/-- T42: the byte 35; the tail of the intermediate does not reach the lanes (T43). -/
theorem test_uDecpart : after (exec .uDecpart { running true Phase.msg 33 32 with
      lanes := lanesT40, mem := Memory.put [] 0x420 0x35 })
    (fun t => (t.mem.bytesAt 0x520 2, t.lanes.s0, t.lanes.s4, t.mpos)) =
    some ([0x20, 0], hexBlock 0x4115f523c1f7f21f1c91089936530ef6,
      hexBlock 0x304f19f03ed04a1f6c066ee448ec6daf, 33) := by decide +kernel

/-- R130's worked example: with AD_LEN = 0 and MSG_LEN = 33, X0 is ZERO and X1 is 0801 then zeros. -/
theorem test_uFinr : after (exec .uFinr { running false Phase.finr 0 33 with adLen := 0 })
    (fun t => (t.lanes.s0, t.lanes.s4, t.rc)) =
    some (0, hexBlock 0x08010000000000000000000000000000, 1) := by decide +kernel

/-- T51: the tag of the lanes T21 after U_LOAD. -/
theorem test_uTagout : after (exec .uTagout { running false Phase.tag 33 33 with
      lanes := ⟨0, 0, z0, z1, 0, 0, 0, 0⟩ }) (fun t => (t.mem.bytesAt 0x600 16, t.phase)) =
    some (blockBytes (hexBlock 0x71be66a2349f82980d95653b57d44af7), Phase.clear) := by
  decide +kernel

/-- R132: a difference in byte 15 alone is a mismatch; the same tag is none. -/
theorem test_uTagchk :
    after (exec .uTagchk { running true Phase.tag 33 33 with mem := Memory.put [] 0x60f 1 })
      (fun t => (t.statusCode, t.phase)) = some (1, Phase.wipe) ∧
    after (exec .uTagchk (running true Phase.tag 33 33)) (fun t => (t.statusCode, t.phase)) =
      some (0, Phase.clear) := by decide +kernel

/-- R134's worked example: 33 bytes, and the byte after them keeps its value. -/
theorem test_uWipe : after (exec .uWipe { failed Phase.wipe with
      dstAddr := 0x300, mem := Memory.putBytes [] 0x2ff (List.replicate 40 5) })
    (fun t => t.mem.bytesAt 0x2ff 35) = some (5 :: List.replicate 33 0xAA ++ [5]) := by decide +kernel

/-- R135's worked example: STATUS reads DONE with CODE 0. -/
theorem test_uClear : after (exec .uClear (running false Phase.clear 33 33))
    (fun t => (statusWord t, t.lanes)) = some (0x00000002, Lanes.zero) := by decide

/-- R144: an accepted ENCRYPT leaves PHASE LOAD and BUSY. -/
theorem test_encrypt : after (exec .encrypt mapped) statusWord = some 0x00000101 := by decide

/-- R147's examples for ENCRYPT and DECRYPT: SRC = 0x300, DST = 0x310, MSG_LEN = 33 is refused; TAG at 0x31f
in DST = 0x300 is refused and at 0x321 accepted. -/
theorem test_overlap :
    (∀ i ∈ [Instr.encrypt, Instr.decrypt],
      after (exec i { mapped with adLen := 0, srcAddr := 0x300, dstAddr := 0x310 })
        (·.statusCode) = some 5) ∧
    after (exec .encrypt { mapped with adLen := 0, dstAddr := 0x300, tagAddr := 0x31f })
      (·.statusCode) = some 5 ∧
    after (exec .encrypt { mapped with adLen := 0, dstAddr := 0x300, tagAddr := 0x321 })
      (·.statusBusy) = some true ∧
    after (exec .decrypt { mapped with adLen := 0, srcAddr := 0x300, dstAddr := 0x300 })
      (·.statusBusy) = some true := by decide

/-- R145: a region may end at 2^AW and not run past it. -/
theorem test_range :
    after (exec .decrypt { mapped with tagAddr := 2 ^ 64 - 16 }) (·.statusBusy) = some true ∧
    after (exec .decrypt { mapped with tagAddr := 2 ^ 64 - 15 }) (·.statusCode) = some 4 ∧
    after (exec .decrypt { mapped with adLen := 0, adAddr := 2 ^ 64 - 1 }) (·.statusBusy) =
      some true := by decide

/-- R144, R31: a command word written while another command runs sets WBUSY. -/
theorem test_decrypt : after (exec .decrypt (running false Phase.msg 33 0)) statusWord =
    some 0x00000405 := by decide

/-- 30_encoding R85: `mem` is legal while BUSY = 0 only, away from the borrowed regions too. -/
theorem test_store_busy :
    after (hostStore 0x9000 [1] (running false Phase.msg 33 0)) (·.mem) = none ∧
    after (hostStore 0x9000 [1] mapped) (·.mem.byteAt 0x9000) = some 1 := by decide

/-- 93_implementation_defined U4: the read of DST after DONE with CODE = 1 finds 0xAA. -/
theorem test_load_after_failure : after (hostLoad 0x500 1
      { mapped with statusDone := true, statusCode := 1, mem := Memory.put [] 0x500 0xAA })
    (·.seen) = some [.mem 0x500 [0xAA]] := by decide

/-! ## The next instruction placed: one word of each format -/

theorem test_fetch_command : after (step (State.reset.withFetchWord 32 1)) (·.statusDone) =
    some true := by decide

theorem test_fetch_microOp : after (step (State.reset.withFetchWord 8 0b010010))
    (fun t => (t.mpos, t.phase, t.host)) = some (1, Phase.finr, []) := by decide +kernel

/-! ## Witnesses: for each obligation with hypotheses, states and operands that meet them together -/

/-- One running state of the invariant for every phase, both directions, and both values of FULL at the
boundary: 32 bytes left, 31 left, 1 left. -/
def runs : List State :=
  [running false Phase.load 0 0, { running true Phase.initr 0 0 with rc := 19 },
   { running false Phase.initr 0 0 with rc := 18 },
   { running true Phase.ad 0 0 with adLen := 32 }, { running false Phase.ad 0 0 with adLen := 31 },
   running true Phase.ad 32 0,
   { running false Phase.msg 33 0 with msgLen := 32 }, { running true Phase.msg 33 0 with msgLen := 32 },
   { running false Phase.msg 33 0 with msgLen := 31 }, running true Phase.msg 33 32,
   { running false Phase.finr 33 33 with rc := 19 }, { running true Phase.finr 33 33 with rc := 18 },
   running false Phase.tag 33 33, running true Phase.tag 33 33, failed Phase.wipe, failed Phase.clear,
   running false Phase.clear 33 33]

theorem runs_inv : ∀ s ∈ runs, s.Inv ∧ s.statusBusy = true := by decide +kernel

theorem runs_go_on : ∀ s ∈ runs, goesOn (coreStep s) = true := by decide +kernel

theorem witness_ResetInputResetsAllButMemory :
    (State.host { running true Phase.msg 33 32 with host := [.reset] }) = .reset :: [] := rfl

theorem witness_StepKeepsTheInvariant :
    (running true Phase.msg 33 32).Inv ∧ ∃ t, step (running true Phase.msg 33 32) = .next t :=
  ⟨by decide +kernel, goesOn_next (by decide +kernel)⟩

theorem witness_CoreStepNeverStops : (running false Phase.load 0 0).Inv := by decide +kernel

theorem witness_SelectorPicksTheTableRow :
    (∀ s ∈ runs, s.Inv ∧ s.statusBusy = true) ∧
    (∀ p : Phase, p ≠ 0 → p ≤ 8 → ∃ s ∈ runs, s.phase = p) := ⟨runs_inv, by decide⟩

theorem witness_UnmatchedSelectorIsUnreachable :
    (∀ p : Phase, p = 0 ∨ 9 ≤ p → (running false p 0 0).phase = p ∧
      (running false p 0 0).statusBusy = true) ∧
    (running false Phase.clear 33 33).Inv ∧ (running false Phase.clear 33 33).statusBusy = true := by
  decide +kernel

theorem witness_DecodeEncodeAgree : Instr.wellFormed .uDecpart = true ∧
    decode (.usel 0b010010#6) = .ok .uDecpart ∧ decode (.cmd 2#32) = .ok .decrypt := by
  exact ⟨rfl, rfl, rfl⟩

theorem witness_StepRunsTheSelectedMicroOp :
    ∀ h : List HostAction, h ∈ [[], [.step 1], [.step 2, .reset], [.run]] →
      (State.statusBusy { running true Phase.tag 33 33 with host := h }) = true ∧
      decodeUsel (usel { running true Phase.tag 33 33 with host := h }) = .ok .uTagchk :=
  fun _ _ => ⟨rfl, (usel_tag rfl).trans rfl⟩

theorem witness_StepRunsTheWrittenCommand :
    (State.host { mapped with host := [.write 0 (2 ^ 32 + 1)] }) = .write 0 (2 ^ 32 + 1) :: [] ∧
    decodeCmd (BitVec.ofNat 32 (2 ^ 32 + 1)) = .ok .encrypt := ⟨rfl, rfl⟩

theorem witness_IllegalCommandWordRefused :
    mapped.statusBusy = false ∧ ∀ v ∈ [0, 3, 0x101, 2 ^ 32], v % 2 ^ 32 ≠ 1 ∧ v % 2 ^ 32 ≠ 2 := by
  decide

theorem witness_IdleHostWriteSetsOneRegister : mapped.statusBusy = false ∧
    (∀ rn ∈ [1, 10, 15], rn = (1 : BitVec 4) ∨ 10 ≤ rn) ∧
    (∀ rn ∈ [2, 9], (2 : BitVec 4) ≤ rn ∧ rn ≤ 9) := by decide

theorem witness_BusyHostWriteOnlySetsWbusy : (running false Phase.load 0 0).statusBusy = true := rfl

theorem witness_HostReadReturnsTheRegister :
    (State.host { running false Phase.load 0 0 with host := [.read 1] }) = .read 1 :: [] ∧
    ∀ rn ∈ [11, 15], (11 : BitVec 4) ≤ rn := ⟨rfl, by decide⟩

/-- The last byte of DST is borrowed, the byte after it is not; the last byte of the space. -/
theorem witness_HostMemoryMoves :
    let s := running false Phase.msg 33 0
    s.statusBusy = true ∧ (∃ r ∈ regions s.dir s, overlap 0x520 1 r.addr r.len) ∧
    (∀ r ∈ regions s.dir s, ¬ overlap 0x521 1 r.addr r.len) ∧
    mapped.statusBusy = false ∧ mapped.mem.wf ∧ 2 ^ 64 - 1 + 1 ≤ 2 ^ mapped.platform.aw := by
  decide +kernel

theorem witness_HostNeverReachesTheLanes :
    ∀ act ∈ [HostAction.write 0 1, .write 2 7, .read 1, .store 0 [1], .load 0 1],
      act ≠ .run ∧ act ≠ .reset ∧ (∀ n, act ≠ .step n) ∧
      ∃ t, hostTurn act mapped = .next t := by
  intro act h
  simp only [List.mem_cons, List.not_mem_nil, or_false] at h
  rcases h with rfl | rfl | rfl | rfl | rfl <;>
    exact ⟨by decide, by decide, by simp, goesOn_next (by decide +kernel)⟩

theorem witness_LegalCommandIsAccepted :
    mapped.statusBusy = false ∧ mapped.accepts false ∧ mapped.accepts true := by decide

theorem witness_CommandWhileBusyIsDropped : (running true Phase.wipe 33 33).statusBusy = true := rfl

/-- Each failing check alone, for both commands. -/
theorem witness_FirstFailingCheckGivesTheCode : ∀ d : Bool,
    let s4 := { mapped with keyAddr := 2 ^ 64 - 31 }
    let s5 := { mapped with dstAddr := 0x410 }
    let s6 := { mapped with platform := { Platform.vectors with denied := [(0x200, 16, .read)] } }
    s4.statusBusy = false ∧ ¬ rangeOK d s4 ∧
    s5.statusBusy = false ∧ rangeOK d s5 ∧ ¬ overlapOK d s5 ∧
    s6.statusBusy = false ∧ rangeOK d s6 ∧ overlapOK d s6 ∧ ¬ accessOK d s6 := by decide

theorem witness_ULoadFillsTheLanes :
    let s := { mapped with keyAddr := 2 ^ 64 - 32, nonceAddr := 2 ^ 64 - 16 }
    s.platform.holds s.keyAddr 32 ∧ s.platform.holds s.nonceAddr 16 := by decide

theorem witness_UAdfullAbsorbsThirtyTwoBytes :
    let s := running false Phase.ad 0 0
    s.platform.holds (s.adAddr + s.adpos) 32 := by decide

theorem witness_UAdpartAbsorbsThePaddedRest :
    ∀ n ∈ [1, 31], let s := { running false Phase.ad 0 0 with adLen := n }
      s.adpos < s.adLen ∧ s.adLen - s.adpos ≤ 31 ∧
      s.platform.holds (s.adAddr + s.adpos) (s.adLen - s.adpos) := by decide

/-- In place and apart. -/
theorem witness_UEncfullWritesCiphertext :
    ∀ a ∈ [0x400, 0x500], let s := { running false Phase.msg 33 0 with dstAddr := a }
      s.mem.wf ∧ s.platform.holds (srcChunkAddr s) 32 ∧ s.platform.holds (dstChunkAddr s) 32 := by
  decide

theorem witness_UEncpartWritesTheRestOnly :
    ∀ n ∈ [1, 31], let s := { running false Phase.msg 33 0 with msgLen := n }
      s.mem.wf ∧ s.mpos < s.msgLen ∧ s.msgLen - s.mpos ≤ 31 ∧
      s.platform.holds (srcChunkAddr s) (s.msgLen - s.mpos) ∧
      s.platform.holds (dstChunkAddr s) (s.msgLen - s.mpos) := by decide

theorem witness_UDecfullWritesPlaintext :
    ∀ a ∈ [0x400, 0x500], let s := { running true Phase.msg 33 0 with dstAddr := a }
      s.mem.wf ∧ s.platform.holds (srcChunkAddr s) 32 ∧ s.platform.holds (dstChunkAddr s) 32 := by
  decide

theorem witness_UDecpartAbsorbsPaddedPlaintext :
    ∀ n ∈ [1, 31], let s := { running true Phase.msg 33 0 with msgLen := n }
      s.mem.wf ∧ s.mpos < s.msgLen ∧ s.msgLen - s.mpos ≤ 31 ∧
      s.platform.holds (srcChunkAddr s) (s.msgLen - s.mpos) ∧
      s.platform.holds (dstChunkAddr s) (s.msgLen - s.mpos) := by decide

theorem witness_UFinrAbsorbsTheLengths :
    let s := { running true Phase.finr 33 33 with adLen := 2 ^ 125 - 1 }
    s.adLen < 2 ^ 125 ∧ s.msgLen < 2 ^ 125 := by decide

theorem witness_UTagoutWritesTheTag :
    let s := { running false Phase.tag 33 33 with tagAddr := 2 ^ 64 - 16 }
    s.mem.wf ∧ s.platform.holds s.tagAddr 16 := by decide

theorem witness_UTagchkComparesTheTag :
    (running true Phase.tag 33 33).platform.holds (running true Phase.tag 33 33).tagAddr 16 := by
  decide

theorem witness_UWipeOverwritesTheOutput :
    ∀ n ∈ [0, 33], let s := { failed Phase.wipe with msgLen := n }
      s.mem.wf ∧ s.platform.holds s.dstAddr s.msgLen := by decide

/-- No byte left, and 32 left; a length of 2^125. -/
theorem witness_StopsOutsideTheNamedLengths :
    let s := running false Phase.ad 33 33
    let t := running false Phase.ad 1 1
    ¬ (s.adpos < s.adLen ∧ s.adLen - s.adpos ≤ 31) ∧ ¬ (s.mpos < s.msgLen ∧ s.msgLen - s.mpos ≤ 31) ∧
    ¬ (t.adpos < t.adLen ∧ t.adLen - t.adpos ≤ 31) ∧ ¬ (t.mpos < t.msgLen ∧ t.msgLen - t.mpos ≤ 31) ∧
    2 ^ 125 ≤ ({ s with adLen := 2 ^ 125 } : State).adLen := by decide

/-- Every instruction goes on somewhere: the hypothesis of InstructionsKeepDescriptors and of
RegistersWrittenOnlyWhereNamed. -/
theorem instructions_go_on : ∀ i ∈ Instr.encrypt :: Instr.decrypt :: microOps,
    goesOn (exec i { running true Phase.msg 32 32 with adLen := 33 }) = true := by decide +kernel

theorem witness_InstructionsKeepDescriptors :
    ∃ t, exec .uWipe (failed Phase.wipe) = .next t := goesOn_next (by decide +kernel)

theorem witness_InstructionsWriteOnlyTheirStretch :
    let s := running false Phase.msg 33 0
    s.mem.wf ∧ (∃ t, exec .uEncfull s = .next t) ∧
    (∀ p ∈ writes .uEncfull s, ¬ inRegion 0x520 p.1 p.2) :=
  ⟨by decide, goesOn_next (by decide +kernel), by decide⟩

/-- Two memories that differ just after the 32 bytes read. -/
theorem witness_MicroOpsReadOnlyTheirStretch :
    let s := running false Phase.msg 33 0
    let m := Memory.put [] 0x420 1
    (∃ t, exec .uEncfull s = .next t) ∧ m ≠ s.mem ∧ s.mem.wf ∧ m.wf ∧
    (∀ p ∈ reads .uEncfull s, ∀ x, inRegion x p.1 p.2 → m.byteAt x = s.mem.byteAt x) := by
  refine ⟨goesOn_next (by decide +kernel), by decide, by decide, by decide, fun p hp x hx => ?_⟩
  simp only [reads, List.mem_singleton] at hp
  subst hp
  exact Memory.byteAt_putBytes_outside (m := []) (by decide) 0x420 x [1]
    (by simp only [inRegion, srcChunkAddr, running, mapped, List.length_singleton] at hx ⊢; omega)

theorem witness_RegistersWrittenOnlyWhereNamed :
    (∃ t, exec .uTagchk (running true Phase.tag 33 33) = .next t) ∧
    (∃ t, exec .uClear (failed Phase.clear) = .next t) ∧
    (∃ t, exec .decrypt mapped = .next t) :=
  ⟨goesOn_next (by decide +kernel), goesOn_next (by decide +kernel), goesOn_next (by decide +kernel)⟩

theorem witness_AccessesStayInsideTheRegions :
    let s := running true Phase.msg 33 32
    s.Inv ∧ s.statusBusy = true ∧ decodeUsel (usel s) = .ok .uDecpart ∧
    (∃ p ∈ reads .uDecpart s, 0 < p.2) ∧ (∃ p ∈ writes .uDecpart s, 0 < p.2) :=
  ⟨by decide +kernel, rfl, rfl, by decide, by decide⟩

theorem witness_CoreStepWritesOnlyOutputs :
    let s := running false Phase.tag 33 33
    s.Inv ∧ s.statusBusy = true ∧ (∃ t, coreStep s = .next t) ∧
    ¬ inRegion 0x521 s.dstAddr s.msgLen ∧ ¬ inRegion 0x521 s.tagAddr 16 ∧
    (∃ r ∈ regions s.dir s, r.output = false ∧ r.name = .src ∧ s.srcAddr ≠ s.dstAddr) :=
  ⟨by decide +kernel, rfl, goesOn_next (by decide +kernel), by decide, by decide, by decide⟩

theorem witness_PhaseGraph : ∀ s ∈ runs, s.Inv ∧ s.statusBusy = true ∧ ∃ t, coreStep s = .next t :=
  fun s h => ⟨(runs_inv s h).1, (runs_inv s h).2, goesOn_next (runs_go_on s h)⟩

/-- Different data, one sequence; and the tag step. -/
theorem witness_SequenceIgnoresTheData :
    ∀ p ∈ [Phase.finr, Phase.tag],
      let s := running true p 33 33
      let s' := { s with lanes := lanesT21, mem := Memory.put [] 0x600 1 }
      s.Inv ∧ s'.Inv ∧ s.statusBusy = true ∧ s'.statusBusy = true ∧
      s.sequencing = s'.sequencing ∧ s.descriptors = s'.descriptors ∧
      goesOn (coreStep s) = true ∧ goesOn (coreStep s') = true := by decide +kernel

theorem witness_HostDoesNotDisturbTheRun :
    (running false Phase.finr 33 33).statusBusy = true ∧
    ∃ t, coreStep (running false Phase.finr 33 33) = .next t := ⟨rfl, goesOn_next (by decide +kernel)⟩

theorem witness_AesRoundByteByByte : 0 < 4 ∧ 3 < 4 := by decide

theorem witness_LenBlockIsTheLengthInBits : 2 ^ 125 - 1 < 2 ^ 125 := by decide

theorem witness_TagDiffIsZeroExactlyOnEqualTags : 0 < 8 ∧ 7 < 8 := by decide

theorem witness_InitPhaseComputesInit :
    let s := running true Phase.load 0 0
    s.statusBusy = true ∧ s.phase = 1 ∧ s.platform.holds s.keyAddr 32 ∧
    s.platform.holds s.nonceAddr 16 := by decide

theorem witness_AdPhaseComputesAbsorbAD :
    ∀ n ∈ [1, 32, 33], let s := { running true Phase.ad 0 0 with adLen := n }
      s.Inv ∧ s.phase = 3 ∧ s.adpos = 0 := by decide +kernel

/-- Both directions, in place and apart, one byte, one chunk, one chunk and a byte. -/
theorem witness_MsgPhaseComputesTheMessage :
    ∀ d : Bool, ∀ n ∈ [1, 32, 33], ∀ a ∈ [0x400, 0x500],
      let s := { running d Phase.msg 33 0 with msgLen := n, dstAddr := a }
      s.Inv ∧ s.phase = 4 ∧ s.mpos = 0 := by decide +kernel

theorem witness_FinalPhaseComputesFinalize :
    let s := running false Phase.finr 33 33
    s.statusBusy = true ∧ s.phase = 5 ∧ s.rc = 0 ∧ s.adLen < 2 ^ 125 ∧ s.msgLen < 2 ^ 125 := by decide

theorem witness_RoccaRoundTripAndTagFlip :
    let tag := (roccaEncrypt (List.replicate 32 0) (List.replicate 16 0) [] [1]).2
    tag ^^^ 1#128 ≠ tag := by
  intro tag h
  have := congrArg (tag ^^^ ·) h
  simp only [← BitVec.xor_assoc, BitVec.xor_self, BitVec.zero_xor] at this
  exact absurd this (by decide)

theorem witness_EncryptCommandComputesRoccaEncrypt :
    mapped.Inv ∧ mapped.statusBusy = false ∧ mapped.accepts false ∧
    ∃ t, exec .encrypt mapped = .next t :=
  ⟨by decide +kernel, rfl, by decide, goesOn_next (by decide +kernel)⟩

theorem witness_DecryptCommandComputesRoccaDecrypt :
    mapped.Inv ∧ mapped.statusBusy = false ∧ mapped.accepts true ∧
    ∃ t, exec .decrypt mapped = .next t :=
  ⟨by decide +kernel, rfl, by decide, goesOn_next (by decide +kernel)⟩

theorem witness_InPlaceRoundTripRestoresTheMessage :
    let s := { mapped with dstAddr := 0x400 }
    s.Inv ∧ s.statusBusy = false ∧ s.dstAddr = s.srcAddr ∧ s.accepts false ∧ s.accepts true ∧
    ∃ t, exec .encrypt s = .next t :=
  ⟨by decide +kernel, rfl, rfl, by decide, by decide, goesOn_next (by decide +kernel)⟩

end Sys2Proof.Tests
end

section
/-! PROOFS. The host port (10_state R30, R31): what a write to each register number does, what it leaves
unchanged, and what the host reads after it. -/

namespace Sys2Proof.Machine

/-! The three branches of a host write. -/

theorem hostWrite_busy {s : State} (h : s.statusBusy = true) (rn : BitVec 4) (v : Nat) :
    hostWrite rn v s = .next (noteWbusy s) := by simp [hostWrite, h]

theorem hostWrite_cmd {s : State} (h : s.statusBusy = false) (v : Nat) :
    hostWrite 0 v s = cmdWrite (BitVec.ofNat 32 v) s := by simp [hostWrite, h]

theorem hostWrite_notCmd {s : State} {rn : BitVec 4} (h : s.statusBusy = false) (hrn : rn ≠ 0)
    (v : Nat) : hostWrite rn v s = .next (writeDescriptor rn v s) := by
  rw [hostWrite, if_neg (by simp [h]), if_neg hrn]

/-! `writeDescriptor`: register by register, so that no later proof splits on the register number. -/

section
variable (rn : BitVec 4) (v : Nat) (s : State)

/-- Each descriptor register takes the new value exactly when `rn` is its own number (R29, R30). -/
theorem writeDescriptor_eq :
    writeDescriptor rn v s = { s with
      keyAddr := if rn = 2 then v % 2 ^ s.platform.aw else s.keyAddr
      nonceAddr := if rn = 3 then v % 2 ^ s.platform.aw else s.nonceAddr
      adAddr := if rn = 4 then v % 2 ^ s.platform.aw else s.adAddr
      adLen := if rn = 5 then v % 2 ^ s.platform.aw else s.adLen
      srcAddr := if rn = 6 then v % 2 ^ s.platform.aw else s.srcAddr
      dstAddr := if rn = 7 then v % 2 ^ s.platform.aw else s.dstAddr
      msgLen := if rn = 8 then v % 2 ^ s.platform.aw else s.msgLen
      tagAddr := if rn = 9 then v % 2 ^ s.platform.aw else s.tagAddr } := by
  unfold writeDescriptor
  split <;> simp_all [BitVec.toNat_eq]

@[simp] theorem writeDescriptor_lanes : (writeDescriptor rn v s).lanes = s.lanes := by
  rw [writeDescriptor_eq]

@[simp] theorem writeDescriptor_mem : (writeDescriptor rn v s).mem = s.mem := by
  rw [writeDescriptor_eq]

@[simp] theorem writeDescriptor_sequencing :
    (writeDescriptor rn v s).sequencing = s.sequencing := by
  rw [writeDescriptor_eq]; rfl

@[simp] theorem writeDescriptor_flags : (writeDescriptor rn v s).flags = s.flags := by
  rw [writeDescriptor_eq]; rfl

@[simp] theorem writeDescriptor_outside : (writeDescriptor rn v s).outside = s.outside := by
  rw [writeDescriptor_eq]; rfl

@[simp] theorem statusWord_writeDescriptor :
    statusWord (writeDescriptor rn v s) = statusWord s := by
  rw [writeDescriptor_eq]; rfl

end

/-- R30: no register stands at 1 or 10 to 15 that a write could change. -/
theorem writeDescriptor_of_readOnly {rn : BitVec 4} (h : rn = 1 ∨ 10 ≤ rn) (v : Nat) (s : State) :
    writeDescriptor rn v s = s := by
  have out : ∀ k : BitVec 4, 2 ≤ k → k ≤ 9 → rn ≠ k := by bv_omega
  simp [writeDescriptor_eq, out]

theorem hostRead_writeDescriptor_same {rn : BitVec 4} (hlo : 2 ≤ rn) (hhi : rn ≤ 9) (v : Nat)
    (s : State) : hostRead rn (writeDescriptor rn v s) = v % 2 ^ s.platform.aw := by
  have numbers : rn = 2 ∨ rn = 3 ∨ rn = 4 ∨ rn = 5 ∨ rn = 6 ∨ rn = 7 ∨ rn = 8 ∨ rn = 9 := by
    bv_omega
  rcases numbers with rfl | rfl | rfl | rfl | rfl | rfl | rfl | rfl <;> rfl

theorem hostRead_writeDescriptor_of_ne {q rn : BitVec 4} (h : q ≠ rn) (v : Nat) (s : State) :
    hostRead q (writeDescriptor rn v s) = hostRead q s := by
  have hn : rn.toNat ≠ q.toNat := fun e => h (BitVec.eq_of_toNat_eq e.symm)
  unfold hostRead
  split
  case h_1 => rw [statusWord_writeDescriptor]
  -- in each remaining case the register read is not the one written, or is constant
  all_goals simp_all [writeDescriptor_eq, BitVec.toNat_eq]

end Sys2Proof.Machine
end

section
/-! PROOFS. The statements of 10_state about host writes: R30 while idle, R31 while busy. -/

namespace Sys2Proof.Proofs
open Sys2Proof.Machine

/-- Settles O13: the sixteen register numbers fall into CMD, the read-only numbers and the eight
descriptor registers, each with its own law of the host port. -/
theorem idleHostWriteSetsOneRegister : Obligations.IdleHostWriteSetsOneRegister := by
  intro s rn v idle
  refine ⟨?cmd, ?readOnly, ?descriptor⟩
  case cmd =>
    rintro rfl
    have low : BitVec.ofNat 32 (v % 2 ^ 32) = BitVec.ofNat 32 v := BitVec.eq_of_toNat_eq (by simp)
    rw [hostWrite_cmd idle, low]
  case readOnly =>
    intro h
    have notCmd : rn ≠ 0 := by bv_omega
    rw [hostWrite_notCmd idle notCmd, writeDescriptor_of_readOnly h]
  case descriptor =>
    intro hlo hhi
    have notCmd : rn ≠ 0 := by bv_omega
    exact ⟨writeDescriptor rn v s, hostWrite_notCmd idle notCmd v,
      hostRead_writeDescriptor_same hlo hhi v s,
      fun q hq => hostRead_writeDescriptor_of_ne hq v s, by simp⟩

/-- Settles O14: the busy branch of a host write notes WBUSY, whatever the number and the value. -/
theorem busyHostWriteOnlySetsWbusy : Obligations.BusyHostWriteOnlySetsWbusy :=
  fun _ rn v busy => hostWrite_busy busy rn v

end Sys2Proof.Proofs
end

section
/-! PROOFS. The decode table (30_encoding R77): the phases a running command can be in, the one row each
of their selectors matches, and the instruction of that row. -/

namespace Sys2Proof.Machine

/-- A running command is in one of the phases 1 to 8 (10_state R42 (a), (f)). -/
theorem State.Inv.phase_of_busy {s : State} (h : s.Inv) (busy : s.statusBusy = true) :
    s.phase ≠ 0 ∧ s.phase ≤ 8 := by
  obtain ⟨busyIffPhase, -, -, -, -, phaseLegal, -⟩ := h
  exact ⟨busyIffPhase.mp busy, phaseLegal⟩

/-- In the phases 1 to 8 the table's rows neither overlap nor leave out a value of DIR or FULL. -/
theorem uselRows_filter_uselWord : ∀ (p : Phase) (dir full : Bool), p ≠ 0 → p ≤ 8 →
    (uselRows.filter fun r => r.selects (uselWord p dir full)).length = 1 := by decide

/-- In MSG the bytes left decide between the full and the partial form, DIR between the two commands. -/
theorem usel_msg_by_bytesLeft {s : State} (h : s.phase = Phase.msg) : decodeUsel (usel s) =
    .ok (if 32 ≤ s.msgLen - s.mpos then (if s.dir then .uDecfull else .uEncfull)
      else (if s.dir then .uDecpart else .uEncpart)) := by
  rw [usel_msg h]
  cases s.dir
  case false => rfl
  case true => rfl

end Sys2Proof.Machine

namespace Sys2Proof.Proofs
open Sys2Proof.Machine

/-- Settles O6: the invariant leaves a running command the phases 1 to 8, whose selectors match one row
each; which instruction that is, the decoder's laws say phase by phase. -/
theorem selectorPicksTheTableRow : Obligations.SelectorPicksTheTableRow := by
  intro s inv busy
  obtain ⟨running, legal⟩ := inv.phase_of_busy busy
  have oneRow : (uselRows.filter fun r => r.selects (usel s)).length = 1 :=
    uselRows_filter_uselWord s.phase s.dir (fullBit s) running legal
  exact ⟨oneRow, usel_load, usel_initr, usel_ad, usel_msg_by_bytesLeft, usel_finr, usel_tag,
    usel_wipe, usel_clear⟩

end Sys2Proof.Proofs
end

section
/-! PROOFS. The functions of 40_datapath_functions outside the AES round: the or of the byte differences (R104),
the length in bits as a Block (R102), and the functions of the lanes (R98, R99, R103). -/

namespace Sys2Proof.Machine

/-! The or of a list of words, which TagDiff forms of the byte differences. -/

section
variable {w : Nat} (f : Nat → BitVec w) (l : List Nat) (d : BitVec w)

theorem getLsbD_foldl_or (j : Nat) :
    (l.foldl (fun d k => d ||| f k) d).getLsbD j =
      (d.getLsbD j || l.any fun k => (f k).getLsbD j) := by
  induction l generalizing d with
  | nil => simp
  | cons k l ih => rw [List.foldl_cons, ih, BitVec.getLsbD_or, List.any_cons, Bool.or_assoc]

theorem foldl_or_eq_zero_iff :
    l.foldl (fun d k => d ||| f k) d = 0 ↔ d = 0 ∧ ∀ k ∈ l, f k = 0 := by
  induction l generalizing d with
  | nil => simp
  | cons k l ih => rw [List.foldl_cons, ih, List.forall_mem_cons, ← and_assoc]; simp

end

theorem getLsbD_tagDiff (t t' : Block) (j : Nat) : (tagDiff t t').getLsbD j =
    (List.range 16).any fun k => (blockByte t k ^^^ blockByte t' k).getLsbD j := by
  rw [tagDiff, getLsbD_foldl_or, BitVec.ofNat_eq_ofNat, BitVec.getLsbD_zero, Bool.false_or]

/-- R104: no difference cancels another, so 0 leaves the sixteen bytes equal. -/
theorem tagDiff_eq_zero_iff (t t' : Block) : tagDiff t t' = 0 ↔ t = t' := by
  calc tagDiff t t' = 0
    _ ↔ ∀ k ∈ List.range 16, blockByte t k ^^^ blockByte t' k = 0 := by
      rw [tagDiff, foldl_or_eq_zero_iff]; simp
    _ ↔ ∀ k < 16, blockByte t k = blockByte t' k := by simp
    _ ↔ t = t' := ⟨block_ext, by rintro rfl _ _; rfl⟩

/-- R102: below 2^125 bytes the length in bits fits a Block. -/
theorem toNat_lenBlock {n : Nat} (h : n < 2 ^ 125) : (lenBlock n).toNat = 8 * n := by
  rw [lenBlock, le128, BitVec.toNat_ofNat, Nat.mod_eq_of_lt (by omega)]

end Sys2Proof.Machine

namespace Sys2Proof.Proofs
open Sys2Proof.Machine

/-- Settles O51: bit by bit and as a whole, from what an or of words says. -/
theorem tagDiffIsZeroExactlyOnEqualTags : Obligations.TagDiffIsZeroExactlyOnEqualTags :=
  fun t t' => ⟨fun j _ => getLsbD_tagDiff t t' j, tagDiff_eq_zero_iff t t'⟩

/-- Settles O49: the three functions are written as the rules list them. -/
theorem updateKeystreamAndTagOfLanes : Obligations.UpdateKeystreamAndTagOfLanes :=
  fun _ _ _ => ⟨rfl, rfl, rfl⟩

/-- Settles O50: the general law from the Block's value and its little-endian bytes, the rule's four
examples by evaluation. -/
theorem lenBlockIsTheLengthInBits : Obligations.LenBlockIsTheLengthInBits :=
  ⟨fun n h => ⟨toNat_lenBlock h, (le_blockBytes (lenBlock n)).trans (toNat_lenBlock h)⟩,
    by decide, by decide, by decide, by decide⟩

end Sys2Proof.Proofs
end

section
/-! PROOFS. The statement of 41_init_uops about U_LOAD: the Blocks of a string read from memory (00_scope R10, R16),
the lanes made from them (R100), and the state the step leaves (R110). -/

namespace Sys2Proof.Machine

/-- R10, R16: sixteen bytes at offset `i` of a string read are those of a read `i` bytes further on. -/
theorem blockAt_bytesAt (m : Memory) (a : Nat) {n i : Nat} (h : i + 16 ≤ n) :
    blockAt (m.bytesAt a n) i = blockOfBytes (m.bytesAt (a + i) 16) := by
  obtain ⟨rest, rfl⟩ := Nat.exists_eq_add_of_le h
  rw [blockAt, Nat.add_assoc, m.bytesAt_add a i, List.drop_left' (m.length_bytesAt a i),
    m.bytesAt_add (a + i) 16, List.take_left' (m.length_bytesAt (a + i) 16)]

/-- R100 with the Blocks of key and nonce as reads of their own, the constants by their literals. -/
theorem initLanes_bytesAt (m : Memory) (keyAddr nonceAddr : Nat) :
    let k0 := blockOfBytes (m.bytesAt keyAddr 16)
    let k1 := blockOfBytes (m.bytesAt (keyAddr + 16) 16)
    let n := blockOfBytes (m.bytesAt nonceAddr 16)
    initLanes (m.bytesAt keyAddr 32) (m.bytesAt nonceAddr 16) =
      ⟨k1, n, 0x428a2f98d728ae227137449123ef65cd#128, 0xb5c0fbcfec4d3b2fe9b5dba58189dbbc#128,
        n ^^^ k1, 0#128, k0, 0#128⟩ := by
  simp only [initLanes, blockAt_bytesAt, Nat.reduceAdd, Nat.reduceLeDiff, Nat.add_zero]
  rfl

end Sys2Proof.Machine

namespace Sys2Proof.Proofs
open Sys2Proof.Machine

/-- Settles O24: with both reads inside the space the step answers its next state, whose lanes are
InitLanes of the bytes read. -/
theorem uLoadFillsTheLanes : Obligations.ULoadFillsTheLanes := by
  refine ⟨decodeUsel_load, fun s keyHolds nonceHolds => ?_⟩
  rw [exec_uLoad_next, initLanes_bytesAt]
  exact ⟨⟨keyHolds, nonceHolds⟩, rfl⟩

end Sys2Proof.Proofs
end

section
/-! PROOFS. The statements of 42_absorb_uops about U_ADFULL and U_ADPART: the two Blocks a 32-byte string is
absorbed as (40_datapath_functions R98, R101), the phase after all associated data (30_encoding R82), and the
states the two steps leave (R115, R116). -/

namespace Sys2Proof.Machine

/-- R115: thirty-two bytes read from memory are absorbed as two reads of a Block each. -/
theorem absorb_bytesAt (S : Lanes) (m : Memory) (a : Nat) : absorb S (m.bytesAt a 32) =
    update S (blockOfBytes (m.bytesAt a 16)) (blockOfBytes (m.bytesAt (a + 16) 16)) := by
  have first : blockAt (m.bytesAt a 32) 0 = blockOfBytes (m.bytesAt a 16) :=
    blockAt_bytesAt m a (by decide)
  have second : blockAt (m.bytesAt a 32) 16 = blockOfBytes (m.bytesAt (a + 16) 16) :=
    blockAt_bytesAt m a (by decide)
  rw [absorb, first, second]

/-- R101, R116: a string of at most thirty-two bytes is absorbed as the two halves of its padded form. -/
theorem absorb_pad32 (S : Lanes) {b : Bytes} (h : b.length ≤ 32) : absorb S (pad32 b) =
    update S (blockOfBytes ((pad32 b).take 16)) (blockOfBytes ((pad32 b).drop 16)) := by
  have noMore : ((pad32 b).drop 16).length ≤ 16 := by rw [List.length_drop, length_pad32 b h]
  rw [absorb, blockAt, blockAt, List.drop_zero, List.take_of_length_le noMore]

/-- R82 at the end of the associated data: AD is over. -/
theorem afterAD_adLen (s : State) :
    afterAD s s.adLen = if 0 < s.msgLen then Phase.msg else Phase.finr :=
  if_neg (Nat.lt_irrefl s.adLen)

end Sys2Proof.Machine

namespace Sys2Proof.Proofs
open Sys2Proof.Machine

/-- Settles O26: with the read inside the space the step answers its next state, whose lanes have absorbed
the bytes read as two Blocks. -/
theorem uAdfullAbsorbsThirtyTwoBytes : Obligations.UAdfullAbsorbsThirtyTwoBytes := by
  refine ⟨fun d => decodeUsel_ad d true, fun s chunkHolds => ?_⟩
  rw [exec_uAdfull_next, absorb_bytesAt]
  exact ⟨chunkHolds, rfl⟩

/-- Settles O27: with 1 to 31 bytes left, all inside the space, the step answers its next state; what it
absorbs is the padded form of exactly these bytes, and ADPOS at AD_LEN ends the AD phase. -/
theorem uAdpartAbsorbsThePaddedRest : Obligations.UAdpartAbsorbsThePaddedRest := by
  refine ⟨fun d => decodeUsel_ad d false, fun s someLeft atMost31 restHolds => ?_⟩
  have fits : (s.mem.bytesAt (adChunkAddr s) (s.adLen - s.adpos)).length ≤ 32 := by
    rw [Memory.length_bytesAt]; omega
  rw [exec_uAdpart_next, absorb_pad32 _ fits, afterAD_adLen, pad32, Memory.length_bytesAt]
  exact ⟨⟨someLeft, atMost31⟩, restHolds, rfl⟩

end Sys2Proof.Proofs
end

section
/-! PROOFS. The statements of 43_message_uops: the key stream on a 32-byte string Block by Block
(40_datapath_functions R99), what the full and the partial steps write and absorb in terms of these
Blocks, and the states the four steps leave (R120 to R123). -/

namespace Sys2Proof.Machine

/-! Byte strings as Blocks. -/

/-- R14: the exclusive or of two Blocks goes byte by byte. -/
theorem blockBytes_xor (a b : Block) :
    blockBytes (a ^^^ b) = xorBytes (blockBytes a) (blockBytes b) := by
  refine List.ext_getElem (by simp) fun k _ _ => ?_
  rw [getElem_xorBytes, getElem_blockBytes, getElem_blockBytes, getElem_blockBytes, blockByte_xor]

/-- R14: two strings cut at the same place are exclusive-ored part by part. -/
theorem xorBytes_append {a b : Bytes} (h : a.length = b.length) (c d : Bytes) :
    xorBytes (a ++ c) (b ++ d) = xorBytes a b ++ xorBytes c d :=
  List.zipWith_append h

/-- The second Block of a string of thirty-two bytes is all that follows the first. -/
theorem blockAt_sixteen {p : Bytes} (h : p.length = 32) :
    blockAt p 16 = blockOfBytes (p.drop 16) := by
  rw [blockAt, List.take_of_length_le (by rw [List.length_drop, h])]

theorem blockBytes_append_blockAt {p : Bytes} (h : p.length = 32) :
    blockBytes (blockAt p 0) ++ blockBytes (blockAt p 16) = p := by
  rw [blockAt_sixteen h, blockAt, List.drop_zero, blockBytes_blockOfBytes _ (by simp [h]),
    blockBytes_blockOfBytes _ (by simp [h]), List.take_append_drop]

/-- R99: the key stream meets a string of thirty-two bytes as two Blocks. -/
theorem xorBytes_keystream (S : Lanes) {p : Bytes} (h : p.length = 32) : xorBytes (keystream S) p =
    blockBytes (aesRound S.s1 S.s5 ^^^ blockAt p 0) ++
      blockBytes (aesRound (S.s0 ^^^ S.s4) S.s2 ^^^ blockAt p 16) := by
  have sameLength : (blockBytes (aesRound S.s1 S.s5)).length = (blockBytes (blockAt p 0)).length :=
    (length_blockBytes _).trans (length_blockBytes _).symm
  rw [blockBytes_xor, blockBytes_xor, ← xorBytes_append sameLength, blockBytes_append_blockAt h,
    keystream]

/-- R101: a string given as two Blocks is absorbed as these Blocks. -/
theorem absorb_blockBytes (S : Lanes) (x y : Block) :
    absorb S (blockBytes x ++ blockBytes y) = update S x y := by
  have first : blockAt (blockBytes x ++ blockBytes y) 0 = x := by
    rw [blockAt, List.drop_zero, List.take_left' (length_blockBytes x), blockOfBytes_blockBytes]
  have second : blockAt (blockBytes x ++ blockBytes y) 16 = y := by
    rw [blockAt_sixteen (by simp), List.drop_left' (length_blockBytes x), blockOfBytes_blockBytes]
  rw [absorb, first, second]

/-! What the steps write and absorb. -/

/-- R120, R122: a full step writes the key stream on two Blocks read from SRC. -/
theorem fullOut_eq_blocks (s : State) : fullOut s =
    blockBytes (aesRound s.lanes.s1 s.lanes.s5 ^^^
      blockOfBytes (s.mem.bytesAt (srcChunkAddr s) 16)) ++
    blockBytes (aesRound (s.lanes.s0 ^^^ s.lanes.s4) s.lanes.s2 ^^^
      blockOfBytes (s.mem.bytesAt (srcChunkAddr s + 16) 16)) := by
  rw [fullOut, xorBytes_keystream _ (Memory.length_bytesAt ..), blockAt_bytesAt _ _ (by decide),
    blockAt_bytesAt _ _ (by decide), Nat.add_zero]

theorem partIn_eq_append (s : State) : partIn s =
    s.mem.bytesAt (srcChunkAddr s) (s.msgLen - s.mpos) ++
      List.replicate (32 - (s.msgLen - s.mpos)) 0 := by
  rw [partIn, pad32, Memory.length_bytesAt]

section
variable {s : State} (atMost31 : s.msgLen - s.mpos ≤ 31)
include atMost31

theorem length_partIn : (partIn s).length = 32 := by
  rw [partIn_eq_append, List.length_append, Memory.length_bytesAt, List.length_replicate]
  omega

/-- R121, R123: a partial step writes the head of the key stream on its two padded Blocks. -/
theorem partOut_eq_take : partOut s =
    (blockBytes (aesRound s.lanes.s1 s.lanes.s5 ^^^ blockOfBytes ((partIn s).take 16)) ++
      blockBytes (aesRound (s.lanes.s0 ^^^ s.lanes.s4) s.lanes.s2 ^^^
        blockOfBytes ((partIn s).drop 16))).take (s.msgLen - s.mpos) := by
  have padded := length_partIn atMost31
  rw [partOut, xorBytes_keystream _ padded, blockAt_sixteen padded, blockAt, List.drop_zero]

theorem absorb_partIn : absorb s.lanes (partIn s) =
    update s.lanes (blockOfBytes ((partIn s).take 16)) (blockOfBytes ((partIn s).drop 16)) :=
  absorb_pad32 _ (by rw [Memory.length_bytesAt]; omega)

/-- R123: U_DECPART absorbs the bytes it writes, then zeros: not the tail of the key stream. -/
theorem absorb_pad32_partOut : absorb s.lanes (pad32 (partOut s)) =
    let p := partOut s ++ List.replicate (32 - (s.msgLen - s.mpos)) 0
    update s.lanes (blockOfBytes (p.take 16)) (blockOfBytes (p.drop 16)) := by
  have len := length_partOut s atMost31
  rw [absorb_pad32 _ (by omega), pad32, len]

end

/-- The common end of the four steps: a chunk stored over canonical memory reads back, and no other byte
changes (20_memory R61). -/
theorem exec_chunk_written {i : Instr} {s : State} {a n : Nat} {out : Bytes} {S : Lanes} {pos : Nat}
    {p : Phase} (wf : s.mem.wf) (len : out.length = n)
    (run : exec i s = .next { s with
      mem := s.mem.putBytes a out, lanes := S, mpos := pos, phase := p }) :
    ∃ t, exec i s = .next t ∧ t.mem.bytesAt a n = out ∧
      (∀ x, ¬ inRegion x a n → t.mem.byteAt x = s.mem.byteAt x) ∧
      t = { s with mem := t.mem, lanes := S, mpos := pos, phase := p } := by
  subst len
  exact ⟨_, run, Memory.bytesAt_putBytes_same wf a out,
    fun x outside => Memory.byteAt_putBytes_outside wf a x out outside, rfl⟩

end Sys2Proof.Machine

namespace Sys2Proof.Proofs
open Sys2Proof.Machine

/-- Settles O28: the step stores the key stream on the two plaintext Blocks and absorbs these Blocks. -/
theorem uEncfullWritesCiphertext : Obligations.UEncfullWritesCiphertext := by
  refine ⟨decodeUsel_msg false true, fun s wf srcHolds dstHolds => ?_⟩
  have run := exec_uEncfull_next.mpr ⟨⟨srcHolds, dstHolds⟩, rfl⟩
  have len := length_fullOut s
  rw [fullOut_eq_blocks] at run len
  rw [absorb_bytesAt] at run
  exact exec_chunk_written wf len run

/-- Settles O29: the step stores the head of the key stream on the padded plaintext and absorbs the
padded plaintext. -/
theorem uEncpartWritesTheRestOnly : Obligations.UEncpartWritesTheRestOnly := by
  refine ⟨decodeUsel_msg false false, fun s wf someLeft atMost31 srcHolds dstHolds => ?_⟩
  have run := exec_uEncpart_next.mpr ⟨⟨someLeft, atMost31⟩, ⟨srcHolds, dstHolds⟩, rfl⟩
  have len := length_partOut s atMost31
  rw [absorb_partIn atMost31] at run
  rw [partOut_eq_take atMost31, partIn_eq_append] at run len
  exact exec_chunk_written wf len run

/-- Settles O30: the two Blocks the step stores are the ones it absorbs. -/
theorem uDecfullWritesPlaintext : Obligations.UDecfullWritesPlaintext := by
  refine ⟨decodeUsel_msg true true, fun s wf srcHolds dstHolds => ?_⟩
  have run := exec_uDecfull_next.mpr ⟨⟨srcHolds, dstHolds⟩, rfl⟩
  have len := length_fullOut s
  rw [fullOut_eq_blocks] at run len
  rw [absorb_blockBytes] at run
  exact exec_chunk_written wf len run

/-- Settles O31: the step stores the head of the intermediate, and absorbs that head padded anew. -/
theorem uDecpartAbsorbsPaddedPlaintext : Obligations.UDecpartAbsorbsPaddedPlaintext := by
  refine ⟨decodeUsel_msg true false, fun s wf someLeft atMost31 srcHolds dstHolds => ?_⟩
  have run := exec_uDecpart_next.mpr ⟨⟨someLeft, atMost31⟩, ⟨srcHolds, dstHolds⟩, rfl⟩
  have len := length_partOut s atMost31
  rw [absorb_pad32_partOut atMost31] at run
  rw [partOut_eq_take atMost31, partIn_eq_append] at run len
  exact exec_chunk_written wf len run

end Sys2Proof.Proofs
end

section
/-! PROOFS. The statement of 44_finalize_uops about U_TAGOUT (R131), a step that stores sixteen bytes as the
message steps store theirs. -/

namespace Sys2Proof.Proofs
open Sys2Proof.Machine

/-- Settles O33: the step stores the sixteen bytes of TagOf over canonical memory and keeps lanes and MPOS,
a case of what a stored chunk leaves. -/
theorem uTagoutWritesTheTag : Obligations.UTagoutWritesTheTag := by
  refine ⟨decodeUsel_tag false, fun s wf tagHolds => ?_⟩
  have run := exec_uTagout_next.mpr ⟨tagHolds, rfl⟩
  have len := length_blockBytes (tagOf s.lanes)
  exact exec_chunk_written wf len run

end Sys2Proof.Proofs
end

section
/-! PROOFS. The statement of 60_exceptions about ERR_OPCODE (R162): a CMD write whose word is no command. -/

namespace Sys2Proof.Machine

/-- R146, R162: an illegal word clears the last result, then is refused with the code of ERR_OPCODE. -/
theorem cmdWrite_illegal {w : BitVec 32} (h1 : w ≠ 1) (h2 : w ≠ 2) (s : State) :
    cmdWrite w s = .next (refuse errOpcode (clearResult s)) := by
  rw [cmdWrite, decodeCmd_illegal h1 h2]

/-- R30: the word written to CMD is the low 32 bits of the value. -/
theorem ofNat32_ne {v n : Nat} (h : v % 2 ^ 32 ≠ n % 2 ^ 32) :
    BitVec.ofNat 32 v ≠ BitVec.ofNat 32 n :=
  fun same => h (by simpa using congrArg BitVec.toNat same)

end Sys2Proof.Machine

namespace Sys2Proof.Proofs
open Sys2Proof.Machine

/-- Settles O12: low bits other than 1 and 2 form an illegal word, and an idle core answers its write with
the refusal, which touches the fields of STATUS alone. -/
theorem illegalCommandWordRefused : Obligations.IllegalCommandWordRefused := by
  intro s v idle not1 not2
  have notEncrypt : BitVec.ofNat 32 v ≠ 1 := ofNat32_ne not1
  have notDecrypt : BitVec.ofNat 32 v ≠ 2 := ofNat32_ne not2
  rw [hostWrite_cmd idle, cmdWrite_illegal notEncrypt notDecrypt]
  rfl

end Sys2Proof.Proofs
end

section
/-! PROOFS. The core step phase by phase (30_encoding R84): the state it answers, from the few facts about the
phase that it rests on, and that the invariant gives these facts. The full and the partial form of a step
are one step on a chunk of 1 to 32 bytes. -/

namespace Sys2Proof.Machine

/-! The parts of the invariant by name. -/

section
variable {s : State} (inv : s.Inv)
include inv

theorem State.Inv.busyIffPhase : s.statusBusy = true ↔ s.phase ≠ Phase.idle := by
  obtain ⟨h, -⟩ := inv; exact h

theorem State.Inv.idleIsClear : s.idleIsClear := by
  obtain ⟨-, h, -⟩ := inv; exact h

theorem State.Inv.roundCounted : s.roundCounted := by
  obtain ⟨-, -, h, -⟩ := inv; exact h

theorem State.Inv.cursorsPlaced : s.cursorsPlaced := by
  obtain ⟨-, -, -, h, -⟩ := inv; exact h

theorem State.Inv.codeExplained : s.codeExplained := by
  obtain ⟨-, -, -, -, h, -⟩ := inv; exact h

theorem State.Inv.busyNotDone : s.busyNotDone := by
  obtain ⟨-, -, -, -, -, -, h, -⟩ := inv; exact h

theorem State.Inv.registersFit : s.registersFit := by
  obtain ⟨-, -, -, -, -, -, -, h, -⟩ := inv; exact h

theorem State.Inv.memoryFits : s.memoryFits := by
  obtain ⟨-, -, -, -, -, -, -, -, h, -⟩ := inv; exact h

theorem State.Inv.mem_wf : s.mem.wf := inv.memoryFits.1

theorem State.Inv.accepts (busy : s.statusBusy = true) : s.accepts s.dir := by
  obtain ⟨-, -, -, -, -, -, -, -, -, h⟩ := inv; exact h busy

/-- A phase other than IDLE is that of a running command (10_state R42 (a)). -/
theorem State.Inv.busy_of_phase {p : Phase} (phase : s.phase = p) (running : p ≠ 0) :
    s.statusBusy = true :=
  inv.busyIffPhase.mpr (phase ▸ running)

/-- An idle core is in PHASE IDLE (10_state R42 (a)). -/
theorem State.Inv.phase_of_idle (idle : s.statusBusy = false) : s.phase = Phase.idle := by
  by_contra running
  have := inv.busyIffPhase.mpr running
  simp [idle] at this

/-- RC counts in INITR and FINR only (10_state R42 (c)). -/
theorem State.Inv.rc_eq_zero {p : Phase} (phase : s.phase = p) (notInitr : p ≠ 2)
    (notFinr : p ≠ 5) : s.rc = 0 := by
  by_contra counting
  rcases inv.roundCounted.2 counting with h | h
  · exact notInitr (phase.symm.trans h)
  · exact notFinr (phase.symm.trans h)

/-- CODE stays 0 while a command runs, up to the tag comparison (45_commands R144). -/
theorem State.Inv.code_eq_zero {p : Phase} (phase : s.phase = p) (running : p ≠ 0)
    (notWipe : p ≠ 7) (notClear : p ≠ 8) : s.statusCode = 0 := by
  obtain ⟨-, -, -, whileBusy, -⟩ := inv.codeExplained
  exact whileBusy (inv.busy_of_phase phase running) (phase ▸ notWipe) (phase ▸ notClear)

end

/-! The chunk that a step of PHASE AD or MSG takes. -/

/-- The bytes of associated data the next step reads: 32, or what is left. -/
def adChunkLen (s : State) : Nat := min 32 (s.adLen - s.adpos)

/-- The bytes of message the next step reads: 32, or what is left. -/
def msgChunkLen (s : State) : Nat := min 32 (s.msgLen - s.mpos)

/-- The message chunk the next step reads. -/
def msgChunk (s : State) : Bytes := s.mem.bytesAt (srcChunkAddr s) (msgChunkLen s)

/-- A chunk under the key stream: what a message step writes (43_message_uops R120 to R123). -/
def chunkOut (S : Lanes) (c : Bytes) : Bytes := (xorBytes (keystream S) (pad32 c)).take c.length

/-- The plaintext of a chunk, which is what a message step absorbs: the chunk itself for ENCRYPT, the
recovered one for DECRYPT. -/
def chunkPlain (d : Bool) (S : Lanes) (c : Bytes) : Bytes := if d then chunkOut S c else c

theorem chunkPlain_of_encrypt {d : Bool} (h : d = false) (S : Lanes) (c : Bytes) :
    chunkPlain d S c = c := by rw [chunkPlain, h, if_neg Bool.false_ne_true]

theorem chunkPlain_of_decrypt {d : Bool} (h : d = true) (S : Lanes) (c : Bytes) :
    chunkPlain d S c = chunkOut S c := if_pos h

theorem length_chunkOut (S : Lanes) {c : Bytes} (h : c.length ≤ 32) :
    (chunkOut S c).length = c.length := by
  simp [chunkOut, length_pad32 c h, h]

@[simp] theorem length_msgChunk (s : State) : (msgChunk s).length = msgChunkLen s := by
  simp [msgChunk]

theorem length_chunkOut_msgChunk (s : State) :
    (chunkOut s.lanes (msgChunk s)).length = msgChunkLen s := by
  rw [length_chunkOut _ (by simp [msgChunkLen]), length_msgChunk]

theorem fullOut_eq_chunkOut (s : State) :
    fullOut s = chunkOut s.lanes (s.mem.bytesAt (srcChunkAddr s) 32) := by
  rw [fullOut, chunkOut, pad32_full _ (by simp), List.take_of_length_le (by simp)]

theorem partOut_eq_chunkOut (s : State) :
    partOut s = chunkOut s.lanes (s.mem.bytesAt (srcChunkAddr s) (s.msgLen - s.mpos)) := by
  rw [partOut, chunkOut, Memory.length_bytesAt, partIn]

/-- The state after a step of PHASE AD (42_absorb_uops R115, R116). -/
def adStep (s : State) : State :=
  { s with
    lanes := absorb s.lanes (pad32 (s.mem.bytesAt (adChunkAddr s) (adChunkLen s)))
    adpos := s.adpos + adChunkLen s
    phase := afterAD s (s.adpos + adChunkLen s) }

/-- The state after a step of PHASE MSG (43_message_uops R120 to R123). -/
def msgStep (s : State) : State :=
  { s with
    mem := s.mem.putBytes (dstChunkAddr s) (chunkOut s.lanes (msgChunk s))
    lanes := absorb s.lanes (pad32 (chunkPlain s.dir s.lanes (msgChunk s)))
    mpos := s.mpos + msgChunkLen s
    phase := afterMSG s (s.mpos + msgChunkLen s) }

/-! One step of each phase. -/

section
variable {s : State} (busy : s.statusBusy = true)
include busy

theorem coreStep_load (phase : s.phase = Phase.load) (key : s.platform.holds s.keyAddr 32)
    (nonce : s.platform.holds s.nonceAddr 16) :
    coreStep s = .next { s with
      lanes := initLanes (s.mem.bytesAt s.keyAddr 32) (s.mem.bytesAt s.nonceAddr 16)
      rc := 0, phase := Phase.initr } := by
  rw [coreStep_of_decode busy (usel_load phase)]
  exact exec_uLoad_next.mpr ⟨⟨key, nonce⟩, rfl⟩

theorem coreStep_initr (phase : s.phase = Phase.initr) :
    coreStep s = .next (finishRound (afterInit s) { s with lanes := update s.lanes z0 z1 }) := by
  rw [coreStep_of_decode busy (usel_initr phase)]
  exact exec_uInitr_next.mpr rfl

theorem coreStep_ad (phase : s.phase = Phase.ad) (more : s.adpos < s.adLen)
    (region : s.platform.holds s.adAddr s.adLen) :
    coreStep s = .next (adStep s) := by
  have chunk : s.platform.holds (adChunkAddr s) (adChunkLen s) :=
    holds_part region (by unfold adChunkLen; omega) (Nat.le_add_right ..)
      (by unfold adChunkAddr adChunkLen; omega)
  by_cases full : 32 ≤ s.adLen - s.adpos
  · have len : adChunkLen s = 32 := min_eq_left full
    rw [len] at chunk
    rw [coreStep_of_decode busy (usel_ad phase), if_pos full, adStep, len, pad32_full _ (by simp)]
    exact exec_uAdfull_next.mpr ⟨chunk, rfl⟩
  · have len : adChunkLen s = s.adLen - s.adpos := min_eq_right (by omega)
    rw [len] at chunk
    rw [coreStep_of_decode busy (usel_ad phase), if_neg full, adStep, len,
      Nat.add_sub_cancel' more.le]
    exact exec_uAdpart_next.mpr ⟨⟨more, by omega⟩, chunk, rfl⟩

theorem coreStep_msg (phase : s.phase = Phase.msg) (more : s.mpos < s.msgLen)
    (src : s.platform.holds s.srcAddr s.msgLen) (dst : s.platform.holds s.dstAddr s.msgLen) :
    coreStep s = .next (msgStep s) := by
  have srcChunk : s.platform.holds (srcChunkAddr s) (msgChunkLen s) :=
    holds_part src (by unfold msgChunkLen; omega) (Nat.le_add_right ..)
      (by unfold srcChunkAddr msgChunkLen; omega)
  have dstChunk : s.platform.holds (dstChunkAddr s) (msgChunkLen s) :=
    holds_part dst (by unfold msgChunkLen; omega) (Nat.le_add_right ..)
      (by unfold dstChunkAddr msgChunkLen; omega)
  have decoded := usel_msg phase
  by_cases full : 32 ≤ s.msgLen - s.mpos
  · have len : msgChunkLen s = 32 := min_eq_left full
    rw [len] at srcChunk dstChunk
    rw [msgStep, msgChunk, len, ← fullOut_eq_chunkOut]
    rcases Bool.eq_false_or_eq_true s.dir with dir | dir
    · rw [chunkPlain_of_decrypt dir, ← fullOut_eq_chunkOut, pad32_full _ (length_fullOut s)]
      rw [if_pos dir, if_pos full] at decoded
      rw [coreStep_of_decode busy decoded]
      exact exec_uDecfull_next.mpr ⟨⟨srcChunk, dstChunk⟩, rfl⟩
    · rw [chunkPlain_of_encrypt dir, pad32_full _ (Memory.length_bytesAt ..)]
      rw [if_neg (by simp [dir]), if_pos full] at decoded
      rw [coreStep_of_decode busy decoded]
      exact exec_uEncfull_next.mpr ⟨⟨srcChunk, dstChunk⟩, rfl⟩
  · have len : msgChunkLen s = s.msgLen - s.mpos := min_eq_right (by omega)
    have isOver : afterMSG s s.msgLen = Phase.finr := if_neg (Nat.lt_irrefl _)
    rw [len] at srcChunk dstChunk
    rw [msgStep, msgChunk, len, ← partOut_eq_chunkOut, Nat.add_sub_cancel' more.le, isOver]
    rcases Bool.eq_false_or_eq_true s.dir with dir | dir
    · rw [chunkPlain_of_decrypt dir, ← partOut_eq_chunkOut]
      rw [if_pos dir, if_neg full] at decoded
      rw [coreStep_of_decode busy decoded]
      exact exec_uDecpart_next.mpr ⟨⟨more, by omega⟩, ⟨srcChunk, dstChunk⟩, rfl⟩
    · rw [chunkPlain_of_encrypt dir]
      rw [if_neg (by simp [dir]), if_neg full] at decoded
      rw [coreStep_of_decode busy decoded]
      exact exec_uEncpart_next.mpr ⟨⟨more, by omega⟩, ⟨srcChunk, dstChunk⟩, rfl⟩

theorem coreStep_finr (phase : s.phase = Phase.finr) (adLen : s.adLen < 2 ^ 125)
    (msgLen : s.msgLen < 2 ^ 125) :
    coreStep s = .next (finishRound Phase.tag
      { s with lanes := update s.lanes (lenBlock s.adLen) (lenBlock s.msgLen) }) := by
  rw [coreStep_of_decode busy (usel_finr phase)]
  exact exec_uFinr_next.mpr ⟨⟨adLen, msgLen⟩, rfl⟩

theorem coreStep_tagout (phase : s.phase = Phase.tag) (dir : s.dir = false)
    (tag : s.platform.holds s.tagAddr 16) :
    coreStep s = .next { s with
      mem := s.mem.putBytes s.tagAddr (blockBytes (tagOf s.lanes)), phase := Phase.clear } := by
  rw [coreStep_of_decode busy ((usel_tag phase).trans (by rw [dir]))]
  exact exec_uTagout_next.mpr ⟨tag, rfl⟩

theorem coreStep_tagchk (phase : s.phase = Phase.tag) (dir : s.dir = true)
    (tag : s.platform.holds s.tagAddr 16) :
    coreStep s = .next
      (if tagDiff (tagOf s.lanes) (blockOfBytes (s.mem.bytesAt s.tagAddr 16)) = 0
        then { s with phase := Phase.clear } else { raiseAuthFail s with phase := Phase.wipe }) := by
  rw [coreStep_of_decode busy ((usel_tag phase).trans (by rw [dir]))]
  exact exec_uTagchk_next.mpr ⟨tag, rfl⟩

theorem coreStep_wipe (phase : s.phase = Phase.wipe) (dst : s.platform.holds s.dstAddr s.msgLen) :
    coreStep s = .next { s with
      mem := s.mem.putBytes s.dstAddr (List.replicate s.msgLen wipeByte)
      phase := Phase.clear } := by
  rw [coreStep_of_decode busy (usel_wipe phase)]
  exact exec_uWipe_next.mpr ⟨dst, rfl⟩

theorem coreStep_clear (phase : s.phase = Phase.clear) :
    coreStep s = .next { s with
      lanes := Lanes.zero, rc := 0, adpos := 0, mpos := 0, dir := false
      statusBusy := false, statusDone := true, phase := Phase.idle } := by
  rw [coreStep_of_decode busy (usel_clear phase)]
  exact exec_uClear_next.mpr rfl

end

/-! What the invariant gives each of these steps. -/

section
variable {s : State} (inv : s.Inv)
include inv

/-- The regions of a running command lie in the space, for the range check has passed. -/
theorem State.Inv.regionsHold (busy : s.statusBusy = true) :
    s.platform.holds s.keyAddr 32 ∧ s.platform.holds s.nonceAddr 16 ∧
    s.platform.holds s.adAddr s.adLen ∧ s.platform.holds s.srcAddr s.msgLen ∧
    s.platform.holds s.dstAddr s.msgLen ∧ s.platform.holds s.tagAddr 16 :=
  holds_of_rangeOK (inv.accepts busy).1

/-- The cursors in AD: bytes are left (10_state R42 (d)). -/
theorem State.Inv.cursors_ad (phase : s.phase = Phase.ad) :
    s.adpos < s.adLen ∧ s.adpos % 32 = 0 ∧ s.mpos = 0 := inv.cursorsPlaced.2.1 phase

/-- The cursors in MSG: bytes are left (10_state R42 (d)). -/
theorem State.Inv.cursors_msg (phase : s.phase = Phase.msg) :
    s.adpos = s.adLen ∧ s.mpos < s.msgLen ∧ s.mpos % 32 = 0 := inv.cursorsPlaced.2.2.1 phase

/-- A running command is in one of eight phases. -/
theorem State.Inv.phaseCases (busy : s.statusBusy = true) :
    s.phase = Phase.load ∨ s.phase = Phase.initr ∨ s.phase = Phase.ad ∨ s.phase = Phase.msg ∨
    s.phase = Phase.finr ∨ s.phase = Phase.tag ∨ s.phase = Phase.wipe ∨ s.phase = Phase.clear :=
  have ⟨running, legal⟩ := inv.phase_of_busy busy
  phase_cases s.phase running legal

theorem State.Inv.step_load (phase : s.phase = Phase.load) :
    coreStep s = .next { s with
      lanes := initLanes (s.mem.bytesAt s.keyAddr 32) (s.mem.bytesAt s.nonceAddr 16)
      rc := 0, phase := Phase.initr } :=
  have busy := inv.busy_of_phase phase (by decide)
  have ⟨key, nonce, _⟩ := inv.regionsHold busy
  coreStep_load busy phase key nonce

theorem State.Inv.step_initr (phase : s.phase = Phase.initr) :
    coreStep s = .next (finishRound (afterInit s) { s with lanes := update s.lanes z0 z1 }) :=
  coreStep_initr (inv.busy_of_phase phase (by decide)) phase

theorem State.Inv.step_ad (phase : s.phase = Phase.ad) :
    coreStep s = .next (adStep s) :=
  have busy := inv.busy_of_phase phase (by decide)
  have ⟨_, _, ad, _⟩ := inv.regionsHold busy
  coreStep_ad busy phase (inv.cursors_ad phase).1 ad

theorem State.Inv.step_msg (phase : s.phase = Phase.msg) :
    coreStep s = .next (msgStep s) :=
  have busy := inv.busy_of_phase phase (by decide)
  have ⟨_, _, _, src, dst, _⟩ := inv.regionsHold busy
  coreStep_msg busy phase (inv.cursors_msg phase).2.1 src dst

theorem State.Inv.step_finr (phase : s.phase = Phase.finr) :
    coreStep s = .next (finishRound Phase.tag
      { s with lanes := update s.lanes (lenBlock s.adLen) (lenBlock s.msgLen) }) :=
  coreStep_finr (inv.busy_of_phase phase (by decide)) phase inv.lengths.1 inv.lengths.2

theorem State.Inv.step_tagout (phase : s.phase = Phase.tag) (dir : s.dir = false) :
    coreStep s = .next { s with
      mem := s.mem.putBytes s.tagAddr (blockBytes (tagOf s.lanes)), phase := Phase.clear } :=
  have busy := inv.busy_of_phase phase (by decide)
  have ⟨_, _, _, _, _, tag⟩ := inv.regionsHold busy
  coreStep_tagout busy phase dir tag

theorem State.Inv.step_tagchk (phase : s.phase = Phase.tag) (dir : s.dir = true) :
    coreStep s = .next
      (if tagDiff (tagOf s.lanes) (blockOfBytes (s.mem.bytesAt s.tagAddr 16)) = 0
        then { s with phase := Phase.clear } else { raiseAuthFail s with phase := Phase.wipe }) :=
  have busy := inv.busy_of_phase phase (by decide)
  have ⟨_, _, _, _, _, tag⟩ := inv.regionsHold busy
  coreStep_tagchk busy phase dir tag

theorem State.Inv.step_wipe (phase : s.phase = Phase.wipe) :
    coreStep s = .next { s with
      mem := s.mem.putBytes s.dstAddr (List.replicate s.msgLen wipeByte)
      phase := Phase.clear } :=
  have busy := inv.busy_of_phase phase (by decide)
  have ⟨_, _, _, _, dst, _⟩ := inv.regionsHold busy
  coreStep_wipe busy phase dst

theorem State.Inv.step_clear (phase : s.phase = Phase.clear) :
    coreStep s = .next { s with
      lanes := Lanes.zero, rc := 0, adpos := 0, mpos := 0, dir := false
      statusBusy := false, statusDone := true, phase := Phase.idle } :=
  coreStep_clear (inv.busy_of_phase phase (by decide)) phase

end

end Sys2Proof.Machine

namespace Sys2Proof.Proofs
open Sys2Proof.Machine

/-- Settles O5: an idle core's turn goes on, and in each phase of a running command the step's equation
names the next state. -/
theorem coreStepNeverStops : Obligations.CoreStepNeverStops := by
  intro s inv
  cases busy : s.statusBusy
  case false => exact ⟨s, coreStep_idle busy⟩
  case true =>
    rcases inv.phaseCases busy with p | p | p | p | p | p | p | p
    · exact ⟨_, inv.step_load p⟩
    · exact ⟨_, inv.step_initr p⟩
    · exact ⟨_, inv.step_ad p⟩
    · exact ⟨_, inv.step_msg p⟩
    · exact ⟨_, inv.step_finr p⟩
    · cases dir : s.dir
      case false => exact ⟨_, inv.step_tagout p dir⟩
      case true => exact ⟨_, inv.step_tagchk p dir⟩
    · exact ⟨_, inv.step_wipe p⟩
    · exact ⟨_, inv.step_clear p⟩

end Sys2Proof.Proofs
end

section
/-! PROOFS. The invariant is kept by every step (10_state R42): by the core's step phase by phase, by a CMD
write, by every other action of the host. A state after a step is either running, with the frame of the state
before, or idle and clear. -/

namespace Sys2Proof.Machine

/-! The parts of the invariant, from what a step leaves. -/

section
variable {s t : State}

/-- The registers of 10_state R35 and the two cursors. -/
theorem registersFit_iff : s.registersFit ↔ (∀ v ∈ s.descriptors, v < 2 ^ s.platform.aw) ∧
    s.adpos < 2 ^ s.platform.aw ∧ s.mpos < 2 ^ s.platform.aw := by
  simp [State.registersFit, State.descriptors, and_assoc]

theorem roundCounted_of_zero (rc : t.rc = 0) : t.roundCounted :=
  ⟨by simp [rc], fun counting => absurd rc counting⟩

theorem codeExplained_of_zero (code : t.statusCode = 0) (notWipe : t.phase ≠ Phase.wipe) :
    t.codeExplained :=
  ⟨by simp [code], fun wipe => absurd wipe notWipe, fun _ => .inl code, fun _ _ _ => code,
    fun _ _ => code⟩

/-- R82 for a cursor that has not passed AD_LEN; with 0 for the cursor this is R81. -/
theorem cursorsPlaced_afterAD (phase : t.phase = afterAD t t.adpos) (bound : t.adpos ≤ t.adLen)
    (whole : t.adpos < t.adLen → t.adpos % 32 = 0) (mpos : t.mpos = 0) : t.cursorsPlaced := by
  simp only [State.cursorsPlaced, phase, afterAD]
  split_ifs with more message
  · simp +decide [more, whole, mpos]
  · simp +decide [message, mpos]; omega
  · simp +decide [mpos]; omega

/-- R83 for a cursor that has not passed MSG_LEN. -/
theorem cursorsPlaced_afterMSG (phase : t.phase = afterMSG t t.mpos) (adpos : t.adpos = t.adLen)
    (bound : t.mpos ≤ t.msgLen) (whole : t.mpos < t.msgLen → t.mpos % 32 = 0) :
    t.cursorsPlaced := by
  simp only [State.cursorsPlaced, phase, afterMSG]
  split_ifs with more
  · simp +decide [more, whole, adpos]
  · simp +decide [adpos]; omega

/-- From FINR on both buffers are used up. -/
theorem cursorsPlaced_of_usedUp
    (phase : t.phase = Phase.finr ∨ t.phase = Phase.tag ∨ t.phase = Phase.wipe ∨
      t.phase = Phase.clear)
    (usedUp : t.adpos = t.adLen ∧ t.mpos = t.msgLen) : t.cursorsPlaced := by
  rcases phase with h | h | h | h <;> simp +decide [State.cursorsPlaced, h, usedUp]

theorem State.Inv.usedUp (inv : s.Inv)
    (phase : s.phase = Phase.finr ∨ s.phase = Phase.tag ∨ s.phase = Phase.wipe ∨
      s.phase = Phase.clear) : s.adpos = s.adLen ∧ s.mpos = s.msgLen :=
  inv.cursorsPlaced.2.2.2 phase

theorem State.Inv.atStart (inv : s.Inv) (phase : s.phase = Phase.load ∨ s.phase = Phase.initr) :
    s.adpos = 0 ∧ s.mpos = 0 :=
  inv.cursorsPlaced.1 phase

theorem cursors_le_of_placed (running : t.phase ≠ 0) (legal : t.phase ≤ 8)
    (cursors : t.cursorsPlaced) : t.adpos ≤ t.adLen ∧ t.mpos ≤ t.msgLen := by
  obtain ⟨atStart, ad, msg, usedUp⟩ := cursors
  rcases phase_cases t.phase running legal with h | h | h | h | h | h | h | h
  · have := atStart (.inl h); omega
  · have := atStart (.inr h); omega
  · have := ad h; omega
  · have := msg h; omega
  · have := usedUp (.inl h); omega
  · have := usedUp (.inr (.inl h)); omega
  · have := usedUp (.inr (.inr (.inl h))); omega
  · have := usedUp (.inr (.inr (.inr h))); omega

/-- What every step of a running command but the last leaves. -/
def State.runFrame (s : State) : List Nat × Platform × Bool × Bool × Bool :=
  (s.descriptors, s.platform, s.dir, s.statusBusy, s.statusDone)

/-- A step of a running command to a running state: what is to be shown of the new phase. -/
theorem State.Inv.of_running (inv : s.Inv) (busy : s.statusBusy = true)
    (frame : t.runFrame = s.runFrame) (mem : t.memoryFits) (running : t.phase ≠ 0 ∧ t.phase ≤ 8)
    (rounds : t.roundCounted) (cursors : t.cursorsPlaced) (code : t.codeExplained) : t.Inv := by
  simp only [State.runFrame, Prod.mk.injEq] at frame
  obtain ⟨descriptors, platform, dir, sameBusy, sameDone⟩ := frame
  have notIdle : t.phase ≠ Phase.idle := running.1
  refine ⟨?_, fun idle => absurd idle notIdle, rounds, cursors, code, running.2, ?_, ?_, mem, ?_⟩
  · exact ⟨fun _ => notIdle, fun _ => sameBusy.trans busy⟩
  · rw [State.busyNotDone, sameBusy, sameDone]
    exact inv.busyNotDone
  · obtain ⟨fit, -⟩ := registersFit_iff.mp inv.registersFit
    rw [← descriptors, ← platform] at fit
    obtain ⟨ad, msg⟩ := cursors_le_of_placed running.1 running.2 cursors
    exact registersFit_iff.mpr ⟨fit, ad.trans_lt (fit _ (by simp [State.descriptors])),
      msg.trans_lt (fit _ (by simp [State.descriptors]))⟩
  · intro _
    rw [dir, accepts_congr descriptors platform]
    exact inv.accepts busy

/-- An idle state: what is to be shown of it. -/
theorem inv_of_idle (busy : t.statusBusy = false) (phase : t.phase = Phase.idle)
    (clear : t.lanes = Lanes.zero ∧ t.dir = false ∧ t.rc = 0 ∧ t.adpos = 0 ∧ t.mpos = 0)
    (code : t.statusCode ∈ ([0, 1, 2, 4, 5, 6] : List (BitVec 4)))
    (done : t.statusDone = false → t.statusCode = 0)
    (registers : ∀ v ∈ t.descriptors, v < 2 ^ t.platform.aw) (mem : t.memoryFits) : t.Inv := by
  have ⟨_, _, rc, adpos, mpos⟩ := clear
  refine ⟨?_, fun _ => clear, roundCounted_of_zero rc, ?_, ?_, ?_, ?_, ?_, mem, ?_⟩
  · simp [State.busyIffPhase, busy, phase]
  · simp +decide [State.cursorsPlaced, phase]
  · exact ⟨code, by simp +decide [phase], by simp +decide [phase], by simp [busy], fun _ => done⟩
  · simp [State.phaseLegal, phase]
  · simp [State.busyNotDone, busy]
  · exact registersFit_iff.mpr ⟨registers, by simp [adpos], by simp [mpos]⟩
  · simp [busy]

end

/-! The core's step. -/

theorem finishRound_of_last {s : State} (p : Phase) (S : Lanes) (h : s.rc = 19) :
    finishRound p { s with lanes := S } = { s with lanes := S, rc := 0, phase := p } := by
  simp [finishRound, h]

theorem finishRound_of_notLast {s : State} (p : Phase) (S : Lanes) (h : s.rc ≠ 19) :
    finishRound p { s with lanes := S } = { s with lanes := S, rc := s.rc + 1 } := by
  rw [finishRound, if_neg h, if_neg h]

theorem afterAD_running (s : State) (p : Nat) :
    (afterAD s p ≠ 0 ∧ afterAD s p ≤ 8) ∧ afterAD s p ≠ Phase.wipe := by
  unfold afterAD; split_ifs <;> decide

theorem afterMSG_running (s : State) (p : Nat) :
    (afterMSG s p ≠ 0 ∧ afterMSG s p ≤ 8) ∧ afterMSG s p ≠ Phase.wipe := by
  unfold afterMSG; split_ifs <;> decide

section
variable {s t : State} (inv : s.Inv)
include inv

theorem State.Inv.after_load (phase : s.phase = Phase.load) (step : coreStep s = .next t) :
    t.Inv := by
  have busy := inv.busy_of_phase phase (by decide)
  have atStart := inv.atStart (.inl phase)
  obtain rfl := Host.Outcome.next.inj ((inv.step_load phase).symm.trans step)
  exact inv.of_running busy (by simp [State.runFrame, State.descriptors])
    ⟨inv.mem_wf, inv.memoryFits.2⟩ ⟨by simp +decide, by simp +decide⟩ (roundCounted_of_zero rfl)
    (by simp +decide [State.cursorsPlaced, atStart])
    (codeExplained_of_zero (inv.code_eq_zero phase (by decide) (by decide) (by decide))
      (by simp +decide))

/-- A round that is not the last counts RC and stays in its phase. -/
theorem State.Inv.after_countedRound (S : Lanes) (phase : s.phase = Phase.initr ∨ s.phase = Phase.finr)
    (notLast : s.rc ≠ 19) : State.Inv { s with lanes := S, rc := s.rc + 1 } := by
  have running : s.phase ≠ Phase.idle := by rcases phase with h | h <;> rw [h] <;> decide
  have busy := inv.busyIffPhase.mpr running
  have counts : s.rc + 1 ≤ 19 := by have := inv.roundCounted.1; bv_omega
  exact inv.of_running busy rfl inv.memoryFits (inv.phase_of_busy busy) ⟨counts, fun _ => phase⟩
    inv.cursorsPlaced inv.codeExplained

theorem State.Inv.after_initr (phase : s.phase = Phase.initr) (step : coreStep s = .next t) :
    t.Inv := by
  have busy := inv.busy_of_phase phase (by decide)
  obtain ⟨adpos, mpos⟩ := inv.atStart (.inr phase)
  obtain rfl := Host.Outcome.next.inj ((inv.step_initr phase).symm.trans step)
  by_cases last : s.rc = 19
  · rw [finishRound_of_last _ _ last]
    refine inv.of_running busy rfl inv.memoryFits (afterAD_running s 0).1 (roundCounted_of_zero rfl)
      (cursorsPlaced_afterAD ?_ ?_ ?_ mpos)
      (codeExplained_of_zero (inv.code_eq_zero phase (by decide) (by decide) (by decide))
        (afterAD_running s 0).2)
    · simp [adpos, afterAD, afterInit]
    · simp [adpos]
    · simp [adpos]
  · rw [finishRound_of_notLast _ _ last]
    exact inv.after_countedRound _ (.inl phase) last

theorem State.Inv.after_ad (phase : s.phase = Phase.ad) (step : coreStep s = .next t) : t.Inv := by
  have busy := inv.busy_of_phase phase (by decide)
  obtain ⟨more, whole, mpos⟩ := inv.cursors_ad phase
  obtain rfl := Host.Outcome.next.inj ((inv.step_ad phase).symm.trans step)
  refine inv.of_running busy rfl inv.memoryFits (afterAD_running s _).1
    (roundCounted_of_zero (inv.rc_eq_zero phase (by decide) (by decide)))
    (cursorsPlaced_afterAD rfl ?_ ?_ mpos)
    (codeExplained_of_zero (inv.code_eq_zero phase (by decide) (by decide) (by decide))
      (afterAD_running s _).2)
  · simp only [adStep, adChunkLen]; omega
  · simp only [adStep, adChunkLen]; omega

theorem State.Inv.after_msg (phase : s.phase = Phase.msg) (step : coreStep s = .next t) : t.Inv := by
  have busy := inv.busy_of_phase phase (by decide)
  obtain ⟨adpos, more, whole⟩ := inv.cursors_msg phase
  obtain ⟨-, -, -, -, dst, -⟩ := inv.regionsHold busy
  have chunk : s.platform.holds (dstChunkAddr s) (chunkOut s.lanes (msgChunk s)).length := by
    rw [length_chunkOut_msgChunk]
    exact holds_part dst (by unfold msgChunkLen; omega) (Nat.le_add_right ..)
      (by unfold dstChunkAddr msgChunkLen; omega)
  obtain rfl := Host.Outcome.next.inj ((inv.step_msg phase).symm.trans step)
  refine inv.of_running busy rfl (memoryFits_putBytes inv.memoryFits chunk rfl rfl)
    (afterMSG_running s _).1
    (roundCounted_of_zero (inv.rc_eq_zero phase (by decide) (by decide)))
    (cursorsPlaced_afterMSG rfl adpos ?_ ?_)
    (codeExplained_of_zero (inv.code_eq_zero phase (by decide) (by decide) (by decide))
      (afterMSG_running s _).2)
  · simp only [msgStep, msgChunkLen]; omega
  · simp only [msgStep, msgChunkLen]; omega

theorem State.Inv.after_finr (phase : s.phase = Phase.finr) (step : coreStep s = .next t) :
    t.Inv := by
  have busy := inv.busy_of_phase phase (by decide)
  obtain rfl := Host.Outcome.next.inj ((inv.step_finr phase).symm.trans step)
  by_cases last : s.rc = 19
  · rw [finishRound_of_last _ _ last]
    exact inv.of_running busy rfl inv.memoryFits ⟨by simp +decide, by simp +decide⟩
      (roundCounted_of_zero rfl) (cursorsPlaced_of_usedUp (.inr (.inl rfl)) (inv.usedUp (.inl phase)))
      (codeExplained_of_zero (inv.code_eq_zero phase (by decide) (by decide) (by decide))
      (by simp +decide))
  · rw [finishRound_of_notLast _ _ last]
    exact inv.after_countedRound _ (.inr phase) last

/-- A step of TAG or WIPE to a later phase, with memory still in form and CODE explained there. -/
theorem State.Inv.after_tagOrWipe (phase : s.phase = Phase.tag ∨ s.phase = Phase.wipe)
    {m : Memory} {p : Phase} {c : BitVec 4} (later : p = Phase.wipe ∨ p = Phase.clear)
    (mem : State.memoryFits { s with mem := m })
    (code : State.codeExplained { s with phase := p, statusCode := c }) :
    State.Inv { s with mem := m, phase := p, statusCode := c } := by
  have before : s.phase ≠ Phase.idle ∧ s.rc = 0 ∧ s.adpos = s.adLen ∧ s.mpos = s.msgLen := by
    rcases phase with h | h
    · exact ⟨by rw [h]; decide, inv.rc_eq_zero h (by decide) (by decide), inv.usedUp (.inr (.inl h))⟩
    · exact ⟨by rw [h]; decide, inv.rc_eq_zero h (by decide) (by decide),
        inv.usedUp (.inr (.inr (.inl h)))⟩
  obtain ⟨running, rc, usedUp⟩ := before
  refine inv.of_running (inv.busyIffPhase.mpr running) rfl mem ?_ (roundCounted_of_zero rc)
    (cursorsPlaced_of_usedUp (.inr (.inr later)) usedUp) code
  rcases later with rfl | rfl <;> simp +decide

theorem State.Inv.after_tag (phase : s.phase = Phase.tag) (step : coreStep s = .next t) : t.Inv := by
  have busy := inv.busy_of_phase phase (by decide)
  have code := inv.code_eq_zero phase (by decide) (by decide) (by decide)
  obtain ⟨-, -, -, -, -, tag⟩ := inv.regionsHold busy
  rcases Bool.eq_false_or_eq_true s.dir with dir | dir
  · obtain rfl := Host.Outcome.next.inj ((inv.step_tagchk phase dir).symm.trans step)
    split_ifs
    · exact inv.after_tagOrWipe (.inl phase) (.inr rfl) inv.memoryFits
        (codeExplained_of_zero code (by simp +decide))
    · refine inv.after_tagOrWipe (.inl phase) (.inl rfl) inv.memoryFits ?_
      simp [State.codeExplained, dir, busy]
  · obtain rfl := Host.Outcome.next.inj ((inv.step_tagout phase dir).symm.trans step)
    exact inv.after_tagOrWipe (.inl phase) (.inr rfl)
      (memoryFits_putBytes inv.memoryFits (by simpa using tag) rfl rfl)
      (codeExplained_of_zero code (by simp +decide))

theorem State.Inv.after_wipe (phase : s.phase = Phase.wipe) (step : coreStep s = .next t) :
    t.Inv := by
  have busy := inv.busy_of_phase phase (by decide)
  obtain ⟨-, -, -, -, dst, -⟩ := inv.regionsHold busy
  obtain ⟨dir, code⟩ := inv.codeExplained.2.1 phase
  obtain rfl := Host.Outcome.next.inj ((inv.step_wipe phase).symm.trans step)
  refine inv.after_tagOrWipe (.inr phase) (.inr rfl)
    (memoryFits_putBytes inv.memoryFits (by simpa using dst) rfl rfl) ?_
  simp [State.codeExplained, dir, code, busy]

theorem State.Inv.after_clear (phase : s.phase = Phase.clear) (step : coreStep s = .next t) :
    t.Inv := by
  obtain rfl := Host.Outcome.next.inj ((inv.step_clear phase).symm.trans step)
  exact inv_of_idle rfl rfl ⟨rfl, rfl, rfl, rfl, rfl⟩ inv.codeExplained.1 (by simp)
    (registersFit_iff.mp inv.registersFit).1 inv.memoryFits

/-- A core step keeps the invariant, in each phase. -/
theorem State.Inv.after_coreStep (step : coreStep s = .next t) : t.Inv := by
  cases busy : s.statusBusy
  case false => exact Host.Outcome.next.inj ((coreStep_idle busy).symm.trans step) ▸ inv
  case true =>
    rcases inv.phaseCases busy with p | p | p | p | p | p | p | p
    · exact inv.after_load p step
    · exact inv.after_initr p step
    · exact inv.after_ad p step
    · exact inv.after_msg p step
    · exact inv.after_finr p step
    · exact inv.after_tag p step
    · exact inv.after_wipe p step
    · exact inv.after_clear p step

end

/-- A run of the core keeps the invariant. -/
theorem State.Inv.after_coreSteps {n : Nat} {s t : State} (inv : s.Inv) (run : coreSteps n s = .next t) :
    t.Inv := by
  induction n generalizing s with
  | zero => exact Host.Outcome.next.inj run ▸ inv
  | succ n ih =>
    simp only [coreSteps] at run
    split at run
    · exact ih (inv.after_coreStep ‹_›) run
    · simp at run
    · simp at run

/-! The host's actions. -/

section
variable {s t : State} (inv : s.Inv)
include inv

/-- An idle state of the invariant, part by part. -/
theorem State.Inv.clear_of_idle (idle : s.statusBusy = false) :
    s.lanes = Lanes.zero ∧ s.dir = false ∧ s.rc = 0 ∧ s.adpos = 0 ∧ s.mpos = 0 :=
  inv.idleIsClear (inv.phase_of_idle idle)

/-- While idle, STATUS may take a result: DONE with one of the codes. -/
theorem State.Inv.after_refuse {c : BitVec 4} (idle : s.statusBusy = false)
    (code : c ∈ ([0, 1, 2, 4, 5, 6] : List (BitVec 4))) : (refuse c (clearResult s)).Inv :=
  inv_of_idle idle (inv.phase_of_idle idle) (inv.clear_of_idle idle) code (by simp)
    (registersFit_iff.mp inv.registersFit).1 inv.memoryFits

/-- While idle, a command that passes its checks may start (45_commands R144). -/
theorem State.Inv.after_start {d : Bool} (idle : s.statusBusy = false) (accepts : s.accepts d) :
    (start d (clearResult s)).Inv := by
  obtain ⟨-, -, -, adpos, mpos⟩ := inv.clear_of_idle idle
  refine ⟨?_, ?_, roundCounted_of_zero rfl, ?_, codeExplained_of_zero rfl (by simp +decide), ?_, ?_, ?_,
    inv.memoryFits, fun _ => (accepts_congr rfl rfl d).mpr accepts⟩
  · simp [State.busyIffPhase]
  · simp [State.idleIsClear]
  · simp +decide [State.cursorsPlaced]
  · simp [State.phaseLegal]
  · simp [State.busyNotDone]
  · exact registersFit_iff.mpr ⟨(registersFit_iff.mp inv.registersFit).1, by simp, by simp⟩

theorem State.Inv.after_commandWrite (d : Bool) : (commandWrite d s).Inv := by
  cases busy : s.statusBusy
  case true => rw [commandWrite_busy d busy]; exact inv
  case false =>
    rw [commandWrite_idle d busy]
    rcases checkAndStart_cases d (clearResult s) with ⟨accepts, h⟩ | ⟨-, h⟩ | ⟨-, -, h⟩ | ⟨-, -, -, h⟩
    · rw [h]; exact inv.after_start busy ((accepts_congr rfl rfl d).mp accepts)
    · rw [h]; exact inv.after_refuse busy (by decide)
    · rw [h]; exact inv.after_refuse busy (by decide)
    · rw [h]; exact inv.after_refuse busy (by decide)

theorem State.Inv.after_cmdWrite {w : BitVec 32} (idle : s.statusBusy = false)
    (write : cmdWrite w s = .next t) : t.Inv := by
  by_cases encrypt : w = 1
  · subst encrypt
    obtain rfl := exec_encrypt_next.mp write
    exact inv.after_commandWrite false
  by_cases decrypt : w = 2
  · subst decrypt
    obtain rfl := exec_decrypt_next.mp write
    exact inv.after_commandWrite true
  rw [cmdWrite_illegal encrypt decrypt] at write
  exact Host.Outcome.next.inj write ▸ inv.after_refuse idle (by decide)

/-- While idle, a descriptor register may take any value of AW bits (10_state R30). -/
theorem State.Inv.after_writeDescriptor (idle : s.statusBusy = false) (rn : BitVec 4) (v : Nat) :
    (writeDescriptor rn v s).Inv := by
  obtain ⟨fit, -⟩ := registersFit_iff.mp inv.registersFit
  have value : v % 2 ^ s.platform.aw < 2 ^ s.platform.aw := Nat.mod_lt _ (Nat.two_pow_pos _)
  obtain ⟨code, -, -, -, done⟩ := inv.codeExplained
  rw [writeDescriptor_eq]
  refine inv_of_idle idle (inv.phase_of_idle idle) (inv.clear_of_idle idle) code (done idle) ?_
    inv.memoryFits
  simp only [State.descriptors, List.forall_mem_cons] at fit ⊢
  obtain ⟨key, nonce, ad, adLen, src, dst, msgLen, tag, -⟩ := fit
  have either : ∀ {k : BitVec 4} {x : Nat}, x < 2 ^ s.platform.aw →
      (if rn = k then v % 2 ^ s.platform.aw else x) < 2 ^ s.platform.aw :=
    fun old => by split_ifs; exacts [value, old]
  exact ⟨either key, either nonce, either ad, either adLen, either src, either dst, either msgLen,
    either tag, by simp⟩

theorem State.Inv.after_hostWrite {rn : BitVec 4} {v : Nat} (write : hostWrite rn v s = .next t) :
    t.Inv := by
  cases busy : s.statusBusy
  case true =>
    rw [hostWrite_busy busy] at write
    exact Host.Outcome.next.inj write ▸ inv
  case false =>
    by_cases cmd : rn = 0
    · subst cmd
      rw [hostWrite_cmd busy] at write
      exact inv.after_cmdWrite busy write
    · rw [hostWrite_notCmd busy cmd] at write
      exact Host.Outcome.next.inj write ▸ inv.after_writeDescriptor busy rn v

theorem State.Inv.after_hostStore {a : Nat} {bs : Bytes} (store : hostStore a bs s = .next t) : t.Inv := by
  obtain ⟨idle, inside, rfl⟩ := hostStore_next.mp store
  obtain ⟨code, -, -, -, done⟩ := inv.codeExplained
  exact inv_of_idle idle (inv.phase_of_idle idle) (inv.clear_of_idle idle) code (done idle)
    (registersFit_iff.mp inv.registersFit).1 (memoryFits_putBytes inv.memoryFits inside rfl rfl)

theorem State.Inv.after_resetInput : (resetInput s).Inv :=
  inv_of_idle rfl rfl ⟨rfl, rfl, rfl, rfl, rfl⟩ (by simp) (fun _ => rfl)
    (by simp [State.descriptors]) inv.memoryFits

/-- The list of the host's coming actions is no part of the invariant. -/
theorem State.Inv.withHost (h : List HostAction) : State.Inv { s with host := h } := inv

theorem State.Inv.after_hostTurn {act : HostAction} (turn : hostTurn act s = .next t) : t.Inv := by
  cases act with
  | write rn v => exact inv.after_hostWrite turn
  | read rn => exact Host.Outcome.next.inj turn ▸ inv
  | store a bs => exact inv.after_hostStore turn
  | load a n =>
    obtain ⟨-, -, rfl⟩ := hostLoad_next.mp turn
    exact inv
  | run =>
    simp only [hostTurn] at turn
    split at turn
    · exact (inv.withHost _).after_coreStep turn
    · exact Host.Outcome.next.inj turn ▸ inv
  | step n =>
    match n with
    | 0 => exact Host.Outcome.next.inj turn ▸ inv
    | 1 => exact inv.after_coreStep turn
    | n + 2 => exact (inv.withHost _).after_coreStep turn
  | reset => exact Host.Outcome.next.inj turn ▸ inv.after_resetInput

end

end Sys2Proof.Machine

namespace Sys2Proof.Proofs
open Sys2Proof.Machine

/-- Settles O3: memory lists nothing, every register is 0 and the core is idle. -/
theorem resetMeetsTheInvariant : Obligations.ResetMeetsTheInvariant :=
  inv_of_idle rfl rfl ⟨rfl, rfl, rfl, rfl, rfl⟩ (by decide) (fun _ => rfl) (by decide) (by decide)

/-- Settles O4: a turn is the core's or takes one action of the host, and each keeps the invariant. -/
theorem stepKeepsTheInvariant : Obligations.StepKeepsTheInvariant := by
  intro s t inv turn
  simp only [step, Machine.turn] at turn
  split at turn
  · exact inv.after_coreStep turn
  · exact (inv.withHost _).after_hostTurn turn

end Sys2Proof.Proofs
end

section
/-! PROOFS. The message functions of 43_message_uops R125 chunk by chunk, both directions as one function, and the
laws of the whole cipher that rest on them (45_commands R153). -/

namespace Sys2Proof.Machine

/-! The chunks of a string. -/

theorem piecesUpTo_of_le {n k : Nat} {b : Bytes} (hn : b.length ≤ n) (hk : b.length ≤ k) :
    piecesUpTo n b = piecesUpTo k b := by
  have empty : ∀ j, piecesUpTo j [] = [] := by intro j; cases j <;> simp [piecesUpTo]
  induction n generalizing k b with
  | zero => rw [List.length_eq_zero_iff.mp (Nat.le_zero.mp hn), empty, empty]
  | succ n ih =>
    cases k with
    | zero => rw [List.length_eq_zero_iff.mp (Nat.le_zero.mp hk), empty, empty]
    | succ k =>
      simp only [piecesUpTo]
      rw [ih (k := k) (by rw [List.length_drop]; omega) (by rw [List.length_drop]; omega)]

@[simp] theorem pieces_nil : pieces [] = [] := rfl

theorem pieces_of_ne_nil {b : Bytes} (h : b ≠ []) : pieces b = b.take 32 :: pieces (b.drop 32) := by
  obtain ⟨n, len⟩ := Nat.exists_eq_succ_of_ne_zero (List.length_eq_zero_iff.not.mpr h)
  rw [pieces, len, piecesUpTo, if_neg h]
  congr 1
  exact piecesUpTo_of_le (by rw [List.length_drop]; omega) le_rfl

theorem absorbAD_of_ne_nil {b : Bytes} (h : b ≠ []) (S : Lanes) :
    absorbAD S b = absorbAD (absorb S (pad32 (b.take 32))) (b.drop 32) := by
  rw [absorbAD, pieces_of_ne_nil h, List.foldl_cons, absorbAD]

/-! EncMsg and DecMsg as one function of the direction. -/

/-- EncMsg or, for `d` true, DecMsg (R125). -/
def message (d : Bool) (S : Lanes) (b : Bytes) : Lanes × Bytes :=
  if d then decMsg S b else encMsg S b

@[simp] theorem message_nil (d : Bool) (S : Lanes) : message d S [] = (S, []) := by
  cases d <;> rfl

/-- The first chunk is written under the key stream and its plaintext absorbed; then the rest follows. -/
theorem message_of_ne_nil {b : Bytes} (h : b ≠ []) (d : Bool) (S : Lanes) :
    message d S b =
      ((message d (absorb S (pad32 (chunkPlain d S (b.take 32)))) (b.drop 32)).1,
        chunkOut S (b.take 32) ++
          (message d (absorb S (pad32 (chunkPlain d S (b.take 32)))) (b.drop 32)).2) := by
  cases d
  case false => simp only [message, encMsg, pieces_of_ne_nil h, encPieces, chunkPlain, chunkOut]; rfl
  case true => simp only [message, decMsg, pieces_of_ne_nil h, decPieces, chunkPlain, chunkOut]; rfl

theorem length_message (d : Bool) (S : Lanes) (b : Bytes) : (message d S b).2.length = b.length := by
  induction len : b.length using Nat.strong_induction_on generalizing S b with
  | _ n ih =>
    by_cases empty : b = []
    · simp [empty, ← len]
    · have some : 0 < b.length := List.length_pos_of_ne_nil empty
      rw [message_of_ne_nil empty, List.length_append, length_chunkOut _ (by simp),
        ih (b.drop 32).length (by rw [List.length_drop]; omega) _ _ rfl, ← List.length_append,
        List.take_append_drop, len]

/-- A chunk put under the key stream twice is the chunk (43_message_uops R123). -/
theorem chunkOut_chunkOut (S : Lanes) {c : Bytes} (h : c.length ≤ 32) :
    chunkOut S (chunkOut S c) = c := by
  rw [chunkOut, length_chunkOut S h]
  exact decTail_encTail S c h

/-- The first chunk of an output is that of the first input chunk, and the rest is that of the rest. -/
theorem take_drop_output (d : Bool) (S S' : Lanes) (b : Bytes) :
    let out := chunkOut S (b.take 32) ++ (message d S' (b.drop 32)).2
    out.take 32 = chunkOut S (b.take 32) ∧ out.drop 32 = (message d S' (b.drop 32)).2 := by
  have len : (chunkOut S (b.take 32)).length = min 32 b.length := by
    rw [length_chunkOut _ (by simp), List.length_take]
  by_cases full : 32 ≤ b.length
  · have len : (chunkOut S (b.take 32)).length = 32 := by omega
    exact ⟨List.take_left' len, List.drop_left' len⟩
  · have short : (chunkOut S (b.take 32)).length ≤ 32 := by omega
    rw [List.drop_of_length_le (show b.length ≤ 32 by omega), message_nil]
    simp [short]

/-- DecMsg of what EncMsg gives is the message, and the lanes are the same. -/
theorem message_message (S : Lanes) (m : Bytes) :
    message true S (message false S m).2 = ((message false S m).1, m) := by
  induction len : m.length using Nat.strong_induction_on generalizing S m with
  | _ n ih =>
    by_cases empty : m = []
    · simp [empty]
    · have some : 0 < m.length := List.length_pos_of_ne_nil empty
      have cipher : (message false S m).2 ≠ [] := by
        rw [← List.length_pos_iff, length_message]; exact some
      have rest := ih (m.drop 32).length (by rw [List.length_drop]; omega)
        (absorb S (pad32 (m.take 32))) (m.drop 32) rfl
      rw [message_of_ne_nil cipher, message_of_ne_nil empty false]
      obtain ⟨first, others⟩ := take_drop_output false S (absorb S (pad32 (m.take 32))) m
      rw [chunkPlain_of_encrypt rfl, first, others, chunkPlain_of_decrypt rfl,
        chunkOut_chunkOut S (by simp), rest, List.take_append_drop]

/-! The whole cipher. -/

theorem length_roccaEncrypt (key nonce ad m : Bytes) :
    (roccaEncrypt key nonce ad m).1.length = m.length :=
  length_message false _ m

/-- RoccaDecrypt of a ciphertext that RoccaEncrypt gave: the tag alone decides (45_commands R152, R153). -/
theorem roccaDecrypt_roccaEncrypt (key nonce ad m : Bytes) (tag : Block) :
    roccaDecrypt key nonce ad (roccaEncrypt key nonce ad m).1 tag =
      if tag = (roccaEncrypt key nonce ad m).2 then (true, m)
      else (false, List.replicate m.length wipeByte) := by
  have undo : decMsg (absorbAD (initState key nonce) ad) (roccaEncrypt key nonce ad m).1 =
      ((encMsg (absorbAD (initState key nonce) ad) m).1, m) := message_message _ m
  have tagIs : (roccaEncrypt key nonce ad m).2 = finalize
      (encMsg (absorbAD (initState key nonce) ad) m).1 ad.length m.length := rfl
  simp only [roccaDecrypt, undo, length_roccaEncrypt, tagDiff_eq_zero_iff, tagIs, eq_comm (a := tag)]

end Sys2Proof.Machine

namespace Sys2Proof.Proofs
open Sys2Proof.Machine

/-- Settles O56: by induction over the chunks. -/
theorem decMsgUndoesEncMsg : Obligations.DecMsgUndoesEncMsg :=
  message_message

/-- Settles O57: the ciphertext is the message again whatever the tag, and the tag decides. -/
theorem roccaRoundTripAndTagFlip : Obligations.RoccaRoundTripAndTagFlip := by
  intro key nonce ad m tag
  refine ⟨length_roccaEncrypt key nonce ad m, ?_, fun differs => ?_⟩
  · rw [roccaDecrypt_roccaEncrypt, if_pos rfl]
  · rw [roccaDecrypt_roccaEncrypt, if_neg differs]; rfl

end Sys2Proof.Proofs
end

section
/-! PROOFS. Acceptance and refusal of a command (45_commands R140 to R149): the three checks region by region, and the
state a CMD write of a command word leaves. -/

namespace Sys2Proof.Machine

section
variable {s : State} {d : Bool}

/-- The range check over the six regions (R145, R149). -/
theorem rangeOK_iff : rangeOK d s = true ↔
    s.platform.holds s.keyAddr 32 ∧ s.platform.holds s.nonceAddr 16 ∧
    s.platform.holds s.adAddr s.adLen ∧ s.platform.holds s.srcAddr s.msgLen ∧
    s.platform.holds s.dstAddr s.msgLen ∧ s.platform.holds s.tagAddr 16 := by
  rw [rangeOK, decide_eq_true_eq]
  simp only [regions, List.forall_mem_cons, List.not_mem_nil, false_imp_iff, implies_true, and_true,
    Config.keyLen, Config.nonceLen, Config.tagLen]

/-- A region with bytes lies in the space when it ends at or below its top (R145). -/
theorem holds_iff_of_bytes {p : Platform} {a n : Nat} :
    p.holds a n ↔ (0 < n → a + n ≤ 2 ^ p.aw) := by
  unfold Platform.holds; omega

/-- The access check over the six regions, with the kind each of them gets (R148, R149). -/
theorem accessOK_iff : accessOK d s = true ↔
    s.platform.memOK s.keyAddr 32 .read = true ∧ s.platform.memOK s.nonceAddr 16 .read = true ∧
    (0 < s.adLen → s.platform.memOK s.adAddr s.adLen .read = true) ∧
    (0 < s.msgLen → s.platform.memOK s.srcAddr s.msgLen .read = true) ∧
    (0 < s.msgLen → s.platform.memOK s.dstAddr s.msgLen .write = true) ∧
    s.platform.memOK s.tagAddr 16 (if d then .read else .write) = true := by
  have tagKind : Region.kind ⟨.tag, s.tagAddr, Config.tagLen, !d⟩ = if d then .read else .write := by
    cases d <;> rfl
  rw [accessOK, decide_eq_true_eq]
  simp only [regions, List.forall_mem_cons, tagKind]
  simp [Region.kind]

/-- DST is an output of both commands: what the overlap check asks of it (R147, R149). -/
theorem dst_clash_iff : (∀ q ∈ regions d s, ¬ clash ⟨.dst, s.dstAddr, s.msgLen, true⟩ q) ↔
    ¬ overlap s.dstAddr s.msgLen s.keyAddr 32 ∧ ¬ overlap s.dstAddr s.msgLen s.nonceAddr 16 ∧
    ¬ overlap s.dstAddr s.msgLen s.adAddr s.adLen ∧
    (s.dstAddr = s.srcAddr ∨ ¬ overlap s.dstAddr s.msgLen s.srcAddr s.msgLen) ∧
    ¬ overlap s.dstAddr s.msgLen s.tagAddr 16 := by
  simp only [regions, List.forall_mem_cons, clash, inPlace, Config.keyLen, Config.nonceLen,
    Config.tagLen]
  simp [-not_and, not_and_or, or_comm]

/-- TAG is an output of ENCRYPT: what the overlap check asks of it (R147, R149). -/
theorem tag_clash_iff :
    (∀ q ∈ regions d s, ¬ clash ⟨.tag, s.tagAddr, Config.tagLen, !d⟩ q) ↔ (d = false →
      ¬ overlap s.tagAddr 16 s.keyAddr 32 ∧ ¬ overlap s.tagAddr 16 s.nonceAddr 16 ∧
      ¬ overlap s.tagAddr 16 s.adAddr s.adLen ∧ ¬ overlap s.tagAddr 16 s.srcAddr s.msgLen ∧
      ¬ overlap s.tagAddr 16 s.dstAddr s.msgLen) := by
  simp only [regions, List.forall_mem_cons, clash, inPlace, Config.keyLen, Config.nonceLen,
    Config.tagLen]
  cases d <;> simp [-not_and]

/-- The other regions are inputs, and an input clashes with nothing (R147). -/
theorem not_clash_of_input {r q : Region} (input : r.output = false) : ¬ clash r q := by
  rintro ⟨output, -⟩
  rw [input] at output
  contradiction

theorem overlapOK_iff : overlapOK d s = true ↔
    (∀ q ∈ regions d s, ¬ clash ⟨.dst, s.dstAddr, s.msgLen, true⟩ q) ∧
    (∀ q ∈ regions d s, ¬ clash ⟨.tag, s.tagAddr, Config.tagLen, !d⟩ q) := by
  rw [overlapOK, decide_eq_true_eq]
  refine ⟨fun h => ⟨h _ (by simp [regions]), h _ (by simp [regions])⟩, ?_⟩
  rintro ⟨dst, tag⟩ r member
  simp only [regions, List.mem_cons, List.not_mem_nil, or_false] at member
  rcases member with rfl | rfl | rfl | rfl | rfl | rfl
  case inr.inr.inr.inr.inl => exact dst
  case inr.inr.inr.inr.inr => exact tag
  all_goals exact fun q _ => not_clash_of_input rfl

theorem overlap_comm {a n b k : Nat} : overlap a n b k ↔ overlap b k a n := by
  unfold overlap; tauto

end

/-! The state after a CMD write. -/

/-- An accepted command starts from the state with the old result cleared (R144). -/
theorem commandWrite_of_accepts {d : Bool} {s : State} (idle : s.statusBusy = false)
    (accepts : s.accepts d) : commandWrite d s = start d (clearResult s) := by
  have cleared : (clearResult s).accepts d := (accepts_congr rfl rfl d).mpr accepts
  obtain ⟨range, overlap, access⟩ := cleared
  rw [commandWrite_idle d idle]
  rcases checkAndStart_cases d (clearResult s) with ⟨-, h⟩ | ⟨no, -⟩ | ⟨-, no, -⟩ | ⟨-, -, no, -⟩
  · exact h
  · exact absurd range no
  · exact absurd overlap no
  · exact absurd access no

/-- The code of the first check that fails (R146, 60_exceptions R168). -/
def firstFailing (d : Bool) (s : State) (c : BitVec 4) : Prop :=
  (¬ rangeOK d s ∧ c = 4) ∨ (rangeOK d s ∧ ¬ overlapOK d s ∧ c = 5) ∨
    (rangeOK d s ∧ overlapOK d s ∧ ¬ accessOK d s ∧ c = 6)

/-- A command that fails a check is refused with that check's code. -/
theorem commandWrite_of_failing {d : Bool} {s : State} {c : BitVec 4} (idle : s.statusBusy = false)
    (failing : firstFailing d s c) : commandWrite d s = refuse c (clearResult s) := by
  have cleared : firstFailing d (clearResult s) c := failing
  rw [commandWrite_idle d idle, checkAndStart]
  rcases cleared with ⟨range, rfl⟩ | ⟨range, overlap, rfl⟩ | ⟨range, overlap, access, rfl⟩
  · rw [if_pos range]
  · rw [if_neg (not_not_intro range), if_pos overlap]
  · rw [if_neg (not_not_intro range), if_neg (not_not_intro overlap), if_pos access]

end Sys2Proof.Machine

namespace Sys2Proof.Proofs
open Sys2Proof.Machine

/-- Settles O22: KEY, NONCE and TAG have bytes, so that the checks ask about them without condition. -/
theorem rangeAndAccessChecksRegionByRegion : Obligations.RangeAndAccessChecksRegionByRegion := by
  intro d s
  refine ⟨?_, accessOK_iff⟩
  rw [rangeOK_iff]
  simp only [holds_iff_of_bytes, Nat.ofNat_pos, true_imp_iff]

/-- Settles O23: what DST and TAG ask together; that they do not overlap each other is asked of DST. -/
theorem overlapCheckRegionByRegion : Obligations.OverlapCheckRegionByRegion := by
  intro d s
  rw [overlapOK_iff, dst_clash_iff, tag_clash_iff, overlap_comm (a := s.tagAddr) (b := s.dstAddr)]
  constructor
  · rintro ⟨⟨key, nonce, ad, src, tag⟩, own⟩
    exact ⟨key, nonce, ad, tag, src, fun encrypts =>
      have ⟨k, n, a, s, _⟩ := own encrypts
      ⟨k, n, a, s⟩⟩
  · rintro ⟨key, nonce, ad, tag, src, own⟩
    exact ⟨⟨key, nonce, ad, src, tag⟩, fun encrypts =>
      have ⟨k, n, a, s⟩ := own encrypts
      ⟨k, n, a, s, tag⟩⟩

/-- Settles O21: the checks of the state with the old result cleared are those of the state, and the first
that fails gives the refusal. -/
theorem firstFailingCheckGivesTheCode : Obligations.FirstFailingCheckGivesTheCode := by
  intro d s idle c failing
  have refused := commandWrite_of_failing idle failing
  cases d
  case false => exact exec_encrypt_next.mpr refused.symm
  case true => exact exec_decrypt_next.mpr refused.symm

/-- Settles O19: the start of either command, written out. -/
theorem legalCommandIsAccepted : Obligations.LegalCommandIsAccepted := by
  intro s idle
  constructor
  · intro accepts
    exact exec_encrypt_next.mpr (commandWrite_of_accepts idle accepts).symm
  · intro accepts
    exact exec_decrypt_next.mpr (commandWrite_of_accepts idle accepts).symm

/-- Settles O20: the busy branch of a CMD write notes WBUSY. -/
theorem commandWhileBusyIsDropped : Obligations.CommandWhileBusyIsDropped :=
  fun _ busy => ⟨exec_encrypt_next.mpr (commandWrite_busy false busy).symm,
    exec_decrypt_next.mpr (commandWrite_busy true busy).symm⟩

end Sys2Proof.Proofs
end

section
/-! PROOFS. The phases of a command as runs of the core: U_LOAD and twenty rounds (41_init_uops R112), the associated
data (42_absorb_uops R118), the message (43_message_uops R125), twenty rounds of the lengths (44_finalize_uops
R137). No run needs the invariant at its inner steps: each keeps the few facts its next step rests on. -/

namespace Sys2Proof.Machine

/-! Twenty rounds, in INITR or in FINR. -/

/-- The last `n + 1` rounds of twenty: RC returns to 0 and PHASE moves on. -/
theorem coreSteps_rounds {s : State} {next : Phase} {x0 x1 : Block}
    (round : ∀ (S : Lanes) (c : BitVec 5), coreStep { s with lanes := S, rc := c } =
      .next (finishRound next { s with lanes := update S x0 x1, rc := c }))
    (n : Nat) (h : n ≤ 19) (S : Lanes) :
    coreSteps (n + 1) { s with lanes := S, rc := BitVec.ofNat 5 (19 - n) } =
      .next { s with lanes := updates (n + 1) S x0 x1, rc := 0, phase := next } := by
  induction n generalizing S with
  | zero =>
    rw [coreSteps_succ (round S _)]
    rfl
  | succ n ih =>
    have notLast : BitVec.ofNat 5 (19 - (n + 1)) ≠ 19 := by
      intro last
      have := congrArg BitVec.toNat last
      simp at this
      omega
    have counts : BitVec.ofNat 5 (19 - (n + 1)) + 1 = BitVec.ofNat 5 (19 - n) :=
      BitVec.eq_of_toNat_eq (by simp; omega)
    have step := round S (BitVec.ofNat 5 (19 - (n + 1)))
    rw [finishRound_of_notLast (s := { s with rc := BitVec.ofNat 5 (19 - (n + 1)) }) _ _ notLast,
      counts] at step
    rw [coreSteps_succ step]
    exact ih (by omega) _

/-- From PHASE LOAD: U_LOAD and twenty U_INITR (R112). -/
theorem coreSteps_init {s : State} (busy : s.statusBusy = true) (phase : s.phase = Phase.load)
    (key : s.platform.holds s.keyAddr 32) (nonce : s.platform.holds s.nonceAddr 16) :
    coreSteps 21 s = .next { s with
      lanes := initState (s.mem.bytesAt s.keyAddr 32) (s.mem.bytesAt s.nonceAddr 16)
      rc := 0, phase := afterInit s } := by
  rw [coreSteps_succ (coreStep_load busy phase key nonce)]
  exact coreSteps_rounds (s := { s with phase := Phase.initr })
    (fun S c => coreStep_initr (s := { s with phase := Phase.initr, lanes := S, rc := c }) busy rfl)
    19 le_rfl (initLanes (s.mem.bytesAt s.keyAddr 32) (s.mem.bytesAt s.nonceAddr 16))

/-- From PHASE FINR: twenty U_FINR (R137). -/
theorem coreSteps_final {s : State} (busy : s.statusBusy = true) (phase : s.phase = Phase.finr)
    (rc : s.rc = 0) (adLen : s.adLen < 2 ^ 125) (msgLen : s.msgLen < 2 ^ 125) :
    coreSteps 20 s = .next { s with
      lanes := updates 20 s.lanes (lenBlock s.adLen) (lenBlock s.msgLen)
      rc := 0, phase := Phase.tag } := by
  have start : s = { s with rc := 0 } := by rw [← rc]
  conv_lhs => rw [start]
  exact coreSteps_rounds
    (fun S c => coreStep_finr (s := { s with lanes := S, rc := c }) busy phase adLen msgLen)
    19 le_rfl s.lanes

/-! Strings of a buffer, cut at a chunk. -/

theorem Memory.take_bytesAt (m : Memory) (a n k : Nat) :
    (m.bytesAt a n).take k = m.bytesAt a (min k n) := by
  refine List.ext_getElem (by simp) fun i _ _ => ?_
  rw [List.getElem_take, Memory.getElem_bytesAt, Memory.getElem_bytesAt]

theorem Memory.drop_bytesAt (m : Memory) (a n k : Nat) :
    (m.bytesAt a n).drop k = m.bytesAt (a + k) (n - k) := by
  refine List.ext_getElem (by simp) fun i _ _ => ?_
  rw [List.getElem_drop, Memory.getElem_bytesAt, Memory.getElem_bytesAt, Nat.add_assoc]

theorem Memory.bytesAt_ne_nil (m : Memory) (a : Nat) {n : Nat} (h : 0 < n) : m.bytesAt a n ≠ [] := by
  rw [← List.length_pos_iff, Memory.length_bytesAt]
  exact h

/-! The associated data. -/

/-- The lanes after the associated data from the cursor on (R118). -/
def adRest (s : State) : Lanes :=
  absorbAD s.lanes (s.mem.bytesAt (adChunkAddr s) (s.adLen - s.adpos))

theorem adRest_of_usedUp {s : State} (h : s.adLen ≤ s.adpos) : adRest s = s.lanes := by
  rw [adRest, Nat.sub_eq_zero_of_le h]; rfl

theorem adRest_adStep {s : State} (more : s.adpos < s.adLen) : adRest (adStep s) = adRest s := by
  have rest : s.mem.bytesAt (adChunkAddr (adStep s)) (s.adLen - (adStep s).adpos) =
      s.mem.bytesAt (adChunkAddr s + 32) (s.adLen - s.adpos - 32) := by
    by_cases last : s.adLen - s.adpos ≤ 32
    · have none : s.adLen - (adStep s).adpos = 0 := by simp only [adStep, adChunkLen]; omega
      rw [none, Nat.sub_eq_zero_of_le last]; rfl
    · have full : adChunkLen s = 32 := min_eq_left (by omega)
      simp only [adStep, adChunkAddr, full, Nat.add_assoc, Nat.sub_sub]
  rw [adRest.eq_def s, absorbAD_of_ne_nil (Memory.bytesAt_ne_nil _ _ (by omega)),
    Memory.take_bytesAt, Memory.drop_bytesAt, ← rest]
  rfl

/-- From the cursor to the end of the associated data, a chunk a step. -/
theorem coreSteps_ad {s : State} (busy : s.statusBusy = true) (phase : s.phase = Phase.ad)
    (more : s.adpos < s.adLen) (region : s.platform.holds s.adAddr s.adLen) :
    coreSteps ((s.adLen - s.adpos + 31) / 32) s = .next { s with
      lanes := adRest s, adpos := s.adLen, phase := afterAD s s.adLen } := by
  induction left : s.adLen - s.adpos using Nat.strong_induction_on generalizing s with
  | _ n ih =>
    subst left
    have step := coreStep_ad busy phase more region
    rw [← adRest_adStep more]
    by_cases last : s.adLen - s.adpos ≤ 32
    · have atEnd : s.adpos + adChunkLen s = s.adLen := by unfold adChunkLen; omega
      have one : (s.adLen - s.adpos + 31) / 32 = 0 + 1 := by omega
      rw [one, coreSteps_succ step, coreSteps, adRest_of_usedUp (s := adStep s) atEnd.ge]
      simp only [adStep, atEnd]
    · have cursor : (adStep s).adpos = s.adpos + 32 := by simp only [adStep, adChunkLen]; omega
      have another : (s.adLen - s.adpos + 31) / 32 = (s.adLen - (adStep s).adpos + 31) / 32 + 1 := by
        omega
      have stays : (adStep s).phase = Phase.ad := if_pos (by unfold adChunkLen; omega)
      rw [another, coreSteps_succ step]
      exact ih _ (by omega) (s := adStep s) busy stays (by rw [cursor]; show _ < s.adLen; omega)
        region rfl

/-! The message. -/

/-- The message from the cursor on, in either direction: lanes after it and output (R125). -/
def messageRest (s : State) : Lanes × Bytes :=
  message s.dir s.lanes (s.mem.bytesAt (srcChunkAddr s) (s.msgLen - s.mpos))

theorem messageRest_of_usedUp {s : State} (h : s.msgLen ≤ s.mpos) :
    messageRest s = (s.lanes, []) := by
  rw [messageRest, Nat.sub_eq_zero_of_le h]
  exact message_nil s.dir s.lanes

/-- A step leaves the rest of the message as it was: it writes below the next cursor when in place, and not
into SRC at all when apart. -/
theorem messageRest_msgStep {s : State} (wf : s.mem.wf) (more : s.mpos < s.msgLen)
    (apart : s.dstAddr = s.srcAddr ∨ ¬ overlap s.dstAddr s.msgLen s.srcAddr s.msgLen) :
    messageRest s = ((messageRest (msgStep s)).1,
      chunkOut s.lanes (msgChunk s) ++ (messageRest (msgStep s)).2) := by
  have rest : (msgStep s).mem.bytesAt (srcChunkAddr (msgStep s)) (s.msgLen - (msgStep s).mpos) =
      s.mem.bytesAt (srcChunkAddr s + 32) (s.msgLen - s.mpos - 32) := by
    by_cases last : s.msgLen - s.mpos ≤ 32
    · have none : s.msgLen - (msgStep s).mpos = 0 := by simp only [msgStep, msgChunkLen]; omega
      rw [none, Nat.sub_eq_zero_of_le last]; rfl
    · have full : msgChunkLen s = 32 := min_eq_left (by omega)
      have outLen : (chunkOut s.lanes (msgChunk s)).length = 32 :=
        (length_chunkOut_msgChunk s).trans full
      have unread := Memory.bytesAt_putBytes_apart wf (dstChunkAddr s) (srcChunkAddr s + 32)
        (s.msgLen - s.mpos - 32) (chunkOut s.lanes (msgChunk s)) (by
          rw [outLen]
          unfold srcChunkAddr dstChunkAddr
          unfold overlap at *
          omega)
      rw [← unread]
      simp only [msgStep, srcChunkAddr, full, Nat.add_assoc, Nat.sub_sub]
  rw [messageRest.eq_def s, message_of_ne_nil (Memory.bytesAt_ne_nil _ _ (by omega)),
    Memory.take_bytesAt, Memory.drop_bytesAt, ← rest]
  rfl

/-- From the cursor to the end of the message, a chunk a step: the output is what the message gives of the
input as it was, in place or not. -/
theorem coreSteps_msg {s : State} (wf : s.mem.wf) (busy : s.statusBusy = true)
    (phase : s.phase = Phase.msg) (more : s.mpos < s.msgLen)
    (src : s.platform.holds s.srcAddr s.msgLen) (dst : s.platform.holds s.dstAddr s.msgLen)
    (apart : s.dstAddr = s.srcAddr ∨ ¬ overlap s.dstAddr s.msgLen s.srcAddr s.msgLen) :
    coreSteps ((s.msgLen - s.mpos + 31) / 32) s = .next { s with
      mem := s.mem.putBytes (dstChunkAddr s) (messageRest s).2
      lanes := (messageRest s).1
      mpos := s.msgLen, phase := Phase.finr } := by
  induction left : s.msgLen - s.mpos using Nat.strong_induction_on generalizing s with
  | _ n ih =>
    subst left
    have step := coreStep_msg busy phase more src dst
    have nextAddr : dstChunkAddr s + msgChunkLen s = dstChunkAddr (msgStep s) := Nat.add_assoc ..
    rw [messageRest_msgStep wf more apart, Memory.putBytes_append, length_chunkOut_msgChunk, nextAddr]
    by_cases last : s.msgLen - s.mpos ≤ 32
    · have atEnd : s.mpos + msgChunkLen s = s.msgLen := by unfold msgChunkLen; omega
      have one : (s.msgLen - s.mpos + 31) / 32 = 0 + 1 := by omega
      have isOver : afterMSG s s.msgLen = Phase.finr := if_neg (Nat.lt_irrefl _)
      rw [one, coreSteps_succ step, coreSteps, messageRest_of_usedUp (s := msgStep s) atEnd.ge]
      simp only [msgStep, atEnd, isOver, Memory.putBytes]
    · have cursor : (msgStep s).mpos = s.mpos + 32 := by simp only [msgStep, msgChunkLen]; omega
      have another : (s.msgLen - s.mpos + 31) / 32 = (s.msgLen - (msgStep s).mpos + 31) / 32 + 1 := by
        omega
      have stays : (msgStep s).phase = Phase.msg := if_pos (by unfold msgChunkLen; omega)
      rw [another, coreSteps_succ step]
      exact ih _ (by omega) (s := msgStep s) (Memory.putBytes_wf wf _ _) busy stays
        (by rw [cursor]; show _ < s.msgLen; omega) src dst apart rfl

/-- What the overlap check of either command asks of DST. -/
theorem dst_apart_of_accepts {d : Bool} {s : State} (accepts : s.accepts d) :
    ¬ overlap s.dstAddr s.msgLen s.keyAddr 32 ∧ ¬ overlap s.dstAddr s.msgLen s.nonceAddr 16 ∧
    ¬ overlap s.dstAddr s.msgLen s.adAddr s.adLen ∧
    (s.dstAddr = s.srcAddr ∨ ¬ overlap s.dstAddr s.msgLen s.srcAddr s.msgLen) ∧
    ¬ overlap s.dstAddr s.msgLen s.tagAddr 16 := by
  obtain ⟨-, overlap, -⟩ := accepts
  exact dst_clash_iff.mp (overlapOK_iff.mp overlap).1

end Sys2Proof.Machine

namespace Sys2Proof.Proofs
open Sys2Proof.Machine

/-- Settles O52: U_LOAD, then the twenty rounds of INITR. -/
theorem initPhaseComputesInit : Obligations.InitPhaseComputesInit :=
  fun _ busy phase key nonce => coreSteps_init busy phase key nonce

/-- Settles O53: the run through the associated data, from a cursor at 0. -/
theorem adPhaseComputesAbsorbAD : Obligations.AdPhaseComputesAbsorbAD := by
  intro s inv phase atStart
  have busy := inv.busy_of_phase phase (by decide)
  obtain ⟨-, -, region, -⟩ := inv.regionsHold busy
  have run := coreSteps_ad busy phase (inv.cursors_ad phase).1 region
  rw [adRest, adChunkAddr, atStart, afterAD_adLen] at run
  exact run

/-- Settles O54: the run through the message, from a cursor at 0; the output is stored in one piece. -/
theorem msgPhaseComputesTheMessage : Obligations.MsgPhaseComputesTheMessage := by
  intro s inv phase atStart out
  have busy := inv.busy_of_phase phase (by decide)
  obtain ⟨-, -, -, src, dst, -⟩ := inv.regionsHold busy
  obtain ⟨-, -, -, apart, -⟩ := dst_apart_of_accepts (inv.accepts busy)
  have run := coreSteps_msg inv.mem_wf busy phase (inv.cursors_msg phase).2.1 src dst apart
  rw [messageRest, srcChunkAddr, dstChunkAddr, atStart] at run
  have len : out.2.length = s.msgLen :=
    (length_message s.dir s.lanes _).trans (Memory.length_bytesAt ..)
  refine ⟨_, run, ?_, fun x outside => ?_, rfl⟩
  · have stored := Memory.bytesAt_putBytes_same inv.mem_wf s.dstAddr out.2
    rwa [len] at stored
  · exact Memory.byteAt_putBytes_outside inv.mem_wf s.dstAddr x out.2 (len ▸ outside)

/-- Settles O55: the twenty rounds of FINR. -/
theorem finalPhaseComputesFinalize : Obligations.FinalPhaseComputesFinalize := by
  intro s busy phase rc adLen msgLen
  refine ⟨_, coreSteps_final busy phase rc adLen msgLen, rfl, ?_⟩
  rw [← rc]
  rfl

end Sys2Proof.Proofs
end

section
/-! PROOFS. Whole commands (45_commands R151 to R156): an accepted command runs through its phases to TAG, and from
there to the end; ENCRYPT in one way, DECRYPT in one of two. -/

namespace Sys2Proof.Machine

/-! Runs. -/

theorem coreSteps_snoc {n : Nat} {s t u : State} (run : coreSteps n s = .next t)
    (step : coreStep t = .next u) : coreSteps (n + 1) s = .next u :=
  (coreSteps_add run 1).trans (coreSteps_succ step)

theorem coreSteps_of_idle {s : State} (idle : s.statusBusy = false) (n : Nat) :
    coreSteps n s = .next s := by
  induction n with
  | zero => rfl
  | succ n ih => rw [coreSteps_succ (coreStep_idle idle), ih]

/-- An idle core stays idle, so a run to a busy state was busy all along. -/
theorem busy_before {n : Nat} {s t : State} (run : coreSteps n s = .next t)
    (busy : t.statusBusy = true) :
    ∀ k < n + 1, ∃ u, coreSteps k s = .next u ∧ u.statusBusy = true := by
  have start : s.statusBusy = true := by
    by_contra idle
    rw [coreSteps_of_idle (Bool.not_eq_true _ ▸ idle)] at run
    exact idle (Host.Outcome.next.inj run ▸ busy)
  induction n generalizing s with
  | zero =>
    intro k h
    obtain rfl : k = 0 := by omega
    exact ⟨s, rfl, start⟩
  | succ n ih =>
    rintro (_ | k) h
    · exact ⟨s, rfl, start⟩
    · cases step : coreStep s with
      | next u =>
        rw [coreSteps_succ step] at run ⊢
        have started : u.statusBusy = true := by
          by_contra idle
          rw [coreSteps_of_idle (Bool.not_eq_true _ ▸ idle)] at run
          exact idle (Host.Outcome.next.inj run ▸ busy)
        exact ih run started k (by omega)
      | fault f => simp [coreSteps, step] at run
      | refused r => simp [coreSteps, step] at run

/-! The associated data and the message, each of which may be empty. -/

theorem coreSteps_adPhase {s : State} (busy : s.statusBusy = true) (phase : s.phase = afterAD s 0)
    (atStart : s.adpos = 0) (region : s.platform.holds s.adAddr s.adLen) :
    coreSteps ((s.adLen + 31) / 32) s = .next { s with
      lanes := absorbAD s.lanes (s.mem.bytesAt s.adAddr s.adLen)
      adpos := s.adLen, phase := afterAD s s.adLen } := by
  by_cases some : 0 < s.adLen
  · have run := coreSteps_ad busy (phase.trans (if_pos some)) (atStart ▸ some) region
    rwa [adRest, adChunkAddr, atStart] at run
  · have none : s.adLen = 0 := by omega
    have here : ∀ L a p, L = s.lanes → a = s.adpos → p = s.phase →
        s = { s with lanes := L, adpos := a, phase := p } := by rintro _ _ _ rfl rfl rfl; rfl
    have steps : (s.adLen + 31) / 32 = 0 := by omega
    rw [steps]
    refine congrArg Host.Outcome.next (here _ _ _ ?_ (none.trans atStart.symm) ?_)
    · rw [none]; rfl
    · rw [none, phase]

theorem coreSteps_msgPhase {s : State} (wf : s.mem.wf) (busy : s.statusBusy = true)
    (phase : s.phase = afterMSG s 0) (atStart : s.mpos = 0)
    (src : s.platform.holds s.srcAddr s.msgLen) (dst : s.platform.holds s.dstAddr s.msgLen)
    (apart : s.dstAddr = s.srcAddr ∨ ¬ overlap s.dstAddr s.msgLen s.srcAddr s.msgLen) :
    let out := message s.dir s.lanes (s.mem.bytesAt s.srcAddr s.msgLen)
    coreSteps ((s.msgLen + 31) / 32) s = .next { s with
      mem := s.mem.putBytes s.dstAddr out.2, lanes := out.1
      mpos := s.msgLen, phase := Phase.finr } := by
  by_cases some : 0 < s.msgLen
  · have run := coreSteps_msg wf busy (phase.trans (if_pos some)) (atStart ▸ some) src dst apart
    rwa [messageRest, srcChunkAddr, dstChunkAddr, atStart] at run
  · have none : s.msgLen = 0 := by omega
    have here : ∀ m L a p, m = s.mem → L = s.lanes → a = s.mpos → p = s.phase →
        s = { s with mem := m, lanes := L, mpos := a, phase := p } := by
      rintro _ _ _ _ rfl rfl rfl rfl; rfl
    have steps : (s.msgLen + 31) / 32 = 0 := by omega
    have out : message s.dir s.lanes (s.mem.bytesAt s.srcAddr s.msgLen) = (s.lanes, []) := by
      rw [none]; exact message_nil ..
    rw [steps, out]
    exact congrArg Host.Outcome.next
      (here _ _ _ _ rfl rfl (none.trans atStart.symm) (phase.trans (if_neg some)).symm)

/-! From acceptance to TAG. -/

/-- What the message phase of a command computes from the regions as they are in `s`: lanes and output. -/
def commandMessage (s : State) : Lanes × Bytes :=
  message s.dir
    (absorbAD (initState (s.mem.bytesAt s.keyAddr 32) (s.mem.bytesAt s.nonceAddr 16))
      (s.mem.bytesAt s.adAddr s.adLen))
    (s.mem.bytesAt s.srcAddr s.msgLen)

theorem length_commandMessage (s : State) : (commandMessage s).2.length = s.msgLen :=
  (length_message ..).trans (Memory.length_bytesAt ..)

/-- The state in PHASE TAG of a command that began with U_LOAD in `s`. -/
def atTag (s : State) : State :=
  { s with
    mem := s.mem.putBytes s.dstAddr (commandMessage s).2
    lanes := updates 20 (commandMessage s).1 (lenBlock s.adLen) (lenBlock s.msgLen)
    rc := 0, adpos := s.adLen, mpos := s.msgLen, phase := Phase.tag }

theorem tagOf_atTag (s : State) :
    tagOf (atTag s).lanes = finalize (commandMessage s).1 s.adLen s.msgLen := rfl

/-- The steps of a command before TAG (R156). -/
theorem State.Inv.run_toTag {s : State} (inv : s.Inv) (phase : s.phase = Phase.load) :
    coreSteps (1 + 20 + (s.adLen + 31) / 32 + (s.msgLen + 31) / 32 + 20) s = .next (atTag s) := by
  have busy := inv.busy_of_phase phase (by decide)
  obtain ⟨key, nonce, ad, src, dst, -⟩ := inv.regionsHold busy
  obtain ⟨-, -, -, apart, -⟩ := dst_apart_of_accepts (inv.accepts busy)
  obtain ⟨adpos, mpos⟩ := inv.atStart (.inl phase)
  have init := coreSteps_init busy phase key nonce
  have absorbed := (coreSteps_add init _).trans (coreSteps_adPhase (s := { s with
    lanes := initState (s.mem.bytesAt s.keyAddr 32) (s.mem.bytesAt s.nonceAddr 16)
    rc := 0, phase := afterInit s }) busy rfl adpos ad)
  rw [afterAD_adLen] at absorbed
  have written := (coreSteps_add absorbed _).trans (coreSteps_msgPhase (s := { s with
    lanes := absorbAD (initState (s.mem.bytesAt s.keyAddr 32) (s.mem.bytesAt s.nonceAddr 16))
      (s.mem.bytesAt s.adAddr s.adLen)
    rc := 0, adpos := s.adLen, phase := afterMSG s 0 }) inv.mem_wf busy rfl mpos src dst apart)
  exact (coreSteps_add written 20).trans (coreSteps_final (s := { s with
    mem := s.mem.putBytes s.dstAddr (commandMessage s).2, lanes := (commandMessage s).1
    rc := 0, adpos := s.adLen, mpos := s.msgLen, phase := Phase.finr })
    busy rfl rfl inv.lengths.1 inv.lengths.2)

/-! From TAG to the end. -/

/-- What an idle `s` is after a command: memory and the result in STATUS are new. -/
def finished (m : Memory) (c : BitVec 4) (s : State) : State :=
  { s with mem := m, statusDone := true, statusCode := c, statusWbusy := false }

/-- U_CLEAR gives the sequencing state and the lanes of an idle core back. -/
theorem State.Inv.clear_finishes {s : State} (inv : s.Inv) (idle : s.statusBusy = false) (L : Lanes)
    (d : Bool) (r : BitVec 5) (a b : Nat) (m : Memory) (c : BitVec 4) :
    coreStep { s with
      lanes := L, phase := Phase.clear, dir := d, rc := r, adpos := a, mpos := b
      statusBusy := true, statusDone := false, statusWbusy := false, statusCode := c, mem := m } =
      .next (finished m c s) := by
  obtain ⟨lanes, dir, rc, adpos, mpos⟩ := inv.clear_of_idle idle
  rw [coreStep_clear rfl rfl]
  simp only [finished, lanes, dir, rc, adpos, mpos, idle, inv.phase_of_idle idle]

/-- The last step of a command. -/
theorem run_ends {n : Nat} {s t u : State} (run : coreSteps n s = .next u)
    (busy : u.statusBusy = true) (last : coreStep u = .next t) :
    (∀ k < n + 1, ∃ u, coreSteps k s = .next u ∧ u.statusBusy = true) ∧
      coreSteps (n + 1) s = .next t :=
  ⟨busy_before run busy, coreSteps_snoc run last⟩

/-- RoccaEncrypt of the regions as they are in `s` (R151). -/
def encryptOut (s : State) : Bytes × Block :=
  roccaEncrypt (s.mem.bytesAt s.keyAddr 32) (s.mem.bytesAt s.nonceAddr 16)
    (s.mem.bytesAt s.adAddr s.adLen) (s.mem.bytesAt s.srcAddr s.msgLen)

/-- RoccaDecrypt of the regions as they are in `s` (R152). -/
def decryptOut (s : State) : Bool × Bytes :=
  roccaDecrypt (s.mem.bytesAt s.keyAddr 32) (s.mem.bytesAt s.nonceAddr 16)
    (s.mem.bytesAt s.adAddr s.adLen) (s.mem.bytesAt s.srcAddr s.msgLen)
    (blockOfBytes (s.mem.bytesAt s.tagAddr 16))

theorem encryptOut_eq {s : State} (dir : s.dir = false) :
    encryptOut s = ((commandMessage s).2, tagOf (atTag s).lanes) := by
  rw [encryptOut, roccaEncrypt, Memory.length_bytesAt, Memory.length_bytesAt, tagOf_atTag,
    commandMessage, dir]
  rfl

theorem decryptOut_eq {s : State} (dir : s.dir = true) : decryptOut s =
    if tagDiff (tagOf (atTag s).lanes) (blockOfBytes (s.mem.bytesAt s.tagAddr 16)) = 0
      then (true, (commandMessage s).2) else (false, List.replicate s.msgLen wipeByte) := by
  rw [decryptOut, roccaDecrypt, Memory.length_bytesAt, Memory.length_bytesAt, tagOf_atTag,
    commandMessage, dir]
  rfl

theorem verified_output {s : State} (dir : s.dir = true) (verifies : (decryptOut s).1 = true) :
    (decryptOut s).2 = (commandMessage s).2 := by
  revert verifies
  rw [decryptOut_eq dir]
  split <;> simp

theorem wiped_output {s : State} (dir : s.dir = true) (differs : (decryptOut s).1 = false) :
    (decryptOut s).2 = List.replicate s.msgLen wipeByte := by
  revert differs
  rw [decryptOut_eq dir]
  split <;> simp

section
variable {s : State} (inv : s.Inv) (phase : s.phase = Phase.load) (dir : s.dir = true)
include inv phase dir

/-- The tag region holds in TAG what it held at the start, since DST does not overlap it: the comparison is that
of RoccaDecrypt. -/
theorem State.Inv.verifies_iff_atTag : (decryptOut s).1 = true ↔ tagDiff (tagOf (atTag s).lanes)
    (blockOfBytes ((atTag s).mem.bytesAt (atTag s).tagAddr 16)) = 0 := by
  obtain ⟨-, -, -, -, apart⟩ :=
    dst_apart_of_accepts (inv.accepts (inv.busy_of_phase phase (by decide)))
  rw [← length_commandMessage s, overlap_comm] at apart
  have unread : (atTag s).mem.bytesAt (atTag s).tagAddr 16 = s.mem.bytesAt s.tagAddr 16 :=
    Memory.bytesAt_putBytes_apart inv.mem_wf _ _ _ _ apart
  rw [unread, decryptOut_eq dir]
  split
  next same => exact iff_of_true rfl same
  next other => exact iff_of_false Bool.false_ne_true other

theorem State.Inv.step_atTag_verified (verifies : (decryptOut s).1 = true) :
    coreStep (atTag s) = .next { atTag s with phase := Phase.clear } := by
  have busy := inv.busy_of_phase phase (by decide)
  obtain ⟨-, -, -, -, -, tagHolds⟩ := inv.regionsHold busy
  rw [coreStep_tagchk (s := atTag s) busy rfl dir tagHolds,
    if_pos ((inv.verifies_iff_atTag phase dir).mp verifies)]

theorem State.Inv.step_atTag_differs (differs : (decryptOut s).1 = false) :
    coreStep (atTag s) = .next { atTag s with statusCode := 1, phase := Phase.wipe } := by
  have busy := inv.busy_of_phase phase (by decide)
  obtain ⟨-, -, -, -, -, tagHolds⟩ := inv.regionsHold busy
  rw [coreStep_tagchk (s := atTag s) busy rfl dir tagHolds,
    if_neg ((inv.verifies_iff_atTag phase dir).not.mp (by simp [differs]))]
  rfl

end

section
variable {s : State} (inv : s.Inv) (idle : s.statusBusy = false)
include inv idle

/-- An accepted ENCRYPT to its end: the ciphertext is stored, then the tag. -/
theorem State.Inv.run_encrypt (accepts : s.accepts false) :
    (∀ k < commandSteps s.adLen s.msgLen, ∃ u,
      coreSteps k (start false (clearResult s)) = .next u ∧ u.statusBusy = true) ∧
    coreSteps (commandSteps s.adLen s.msgLen) (start false (clearResult s)) = .next (finished
      ((s.mem.putBytes s.dstAddr (encryptOut s).1).putBytes s.tagAddr (blockBytes (encryptOut s).2))
      0 s) := by
  have started := inv.after_start idle accepts
  obtain ⟨-, -, -, -, -, tagHolds⟩ := started.regionsHold rfl
  have toClear := coreSteps_snoc (started.run_toTag rfl) (coreStep_tagout rfl rfl rfl tagHolds)
  have out : encryptOut s = _ := encryptOut_eq (s := start false (clearResult s)) rfl
  rw [out]
  exact run_ends toClear rfl (inv.clear_finishes idle ..)

/-- An accepted DECRYPT whose tags agree: the message is stored. -/
theorem State.Inv.run_decrypt (accepts : s.accepts true) (verifies : (decryptOut s).1 = true) :
    (∀ k < commandSteps s.adLen s.msgLen, ∃ u,
      coreSteps k (start true (clearResult s)) = .next u ∧ u.statusBusy = true) ∧
    coreSteps (commandSteps s.adLen s.msgLen) (start true (clearResult s)) = .next (finished
      (s.mem.putBytes s.dstAddr (decryptOut s).2) 0 s) := by
  have started := inv.after_start idle accepts
  have toClear := coreSteps_snoc (started.run_toTag rfl)
    (started.step_atTag_verified rfl rfl verifies)
  have out : (decryptOut s).2 = _ := verified_output (s := start true (clearResult s)) rfl verifies
  rw [out]
  exact run_ends toClear rfl (inv.clear_finishes idle ..)

/-- An accepted DECRYPT whose tags differ: the message is stored and then wiped. -/
theorem State.Inv.run_decrypt_wiped (accepts : s.accepts true)
    (differs : (decryptOut s).1 = false) :
    (∀ k < commandSteps s.adLen s.msgLen + 1, ∃ u,
      coreSteps k (start true (clearResult s)) = .next u ∧ u.statusBusy = true) ∧
    ∃ b : Bytes, b.length = s.msgLen ∧
    coreSteps (commandSteps s.adLen s.msgLen + 1) (start true (clearResult s)) = .next (finished
      ((s.mem.putBytes s.dstAddr b).putBytes s.dstAddr (decryptOut s).2) 1 s) := by
  have started := inv.after_start idle accepts
  obtain ⟨-, -, -, -, dstHolds, -⟩ := started.regionsHold rfl
  have toWipe := coreSteps_snoc (started.run_toTag rfl)
    (started.step_atTag_differs rfl rfl differs)
  have toClear := coreSteps_snoc toWipe (coreStep_wipe rfl rfl dstHolds)
  have out : (decryptOut s).2 = _ := wiped_output (s := start true (clearResult s)) rfl differs
  rw [out]
  obtain ⟨busy, run⟩ := run_ends toClear rfl (inv.clear_finishes idle ..)
  exact ⟨busy, _, length_commandMessage (start true (clearResult s)), run⟩

end

/-! Memory after two stores. -/

section
variable {m : Memory} (wf : m.wf) {a b n k : Nat} {v w : Bytes} (vLen : v.length = n)
  (wLen : w.length = k)
include wf vLen wLen

/-- Two strings stored apart are both read back, and every other byte is as before. -/
theorem two_stores_apart (apart : ¬ overlap a n b k) :
    ((m.putBytes a v).putBytes b w).bytesAt a n = v ∧
    ((m.putBytes a v).putBytes b w).bytesAt b k = w ∧
    ∀ x, ¬ inRegion x a n → ¬ inRegion x b k →
      ((m.putBytes a v).putBytes b w).byteAt x = m.byteAt x := by
  subst vLen wLen
  have wf' := Memory.putBytes_wf wf a v
  refine ⟨?_, Memory.bytesAt_putBytes_same wf' b w, fun x notV notW => ?_⟩
  · rw [Memory.bytesAt_putBytes_apart wf' b a _ w apart, Memory.bytesAt_putBytes_same wf]
  · rw [Memory.byteAt_putBytes_outside wf' b x w notW, Memory.byteAt_putBytes_outside wf a x v notV]

/-- A string stored over another of its length is read back, and every other byte is as before. -/
theorem two_stores_same (same : k = n) :
    ((m.putBytes a v).putBytes a w).bytesAt a n = w ∧
    ∀ x, ¬ inRegion x a n → ((m.putBytes a v).putBytes a w).byteAt x = m.byteAt x := by
  subst same wLen
  have wf' := Memory.putBytes_wf wf a v
  refine ⟨Memory.bytesAt_putBytes_same wf' a w, fun x outside => ?_⟩
  rw [Memory.byteAt_putBytes_outside wf' a x w outside,
    Memory.byteAt_putBytes_outside wf a x v (vLen ▸ outside)]

end

theorem length_encryptOut (s : State) : (encryptOut s).1.length = s.msgLen :=
  (length_roccaEncrypt ..).trans (Memory.length_bytesAt ..)

theorem length_decryptOut (s : State) : (decryptOut s).2.length = s.msgLen := by
  simp only [decryptOut, roccaDecrypt]
  split
  · exact (length_message true ..).trans (Memory.length_bytesAt ..)
  · simp

/-- What the overlap check of ENCRYPT asks of TAG. -/
theorem tag_apart_of_accepts {s : State} (accepts : s.accepts false) :
    ¬ overlap s.tagAddr 16 s.keyAddr 32 ∧ ¬ overlap s.tagAddr 16 s.nonceAddr 16 ∧
    ¬ overlap s.tagAddr 16 s.adAddr s.adLen ∧ ¬ overlap s.tagAddr 16 s.srcAddr s.msgLen ∧
    ¬ overlap s.tagAddr 16 s.dstAddr s.msgLen := by
  obtain ⟨-, overlap, -⟩ := accepts
  exact tag_clash_iff.mp (overlapOK_iff.mp overlap).2 rfl

/-- With the ciphertext of `s` in SRC, its tag in TAG and nothing else changed but DST, the message verifies: KEY,
NONCE and AD lie apart from both outputs. -/
theorem decryptOut_after_encrypt {s : State} {m : Memory} (accepts : s.accepts false)
    (cipher : m.bytesAt s.srcAddr s.msgLen = (encryptOut s).1)
    (tag : m.bytesAt s.tagAddr 16 = blockBytes (encryptOut s).2)
    (frame : ∀ x, ¬ inRegion x s.dstAddr s.msgLen → ¬ inRegion x s.tagAddr 16 →
      m.byteAt x = s.mem.byteAt x) :
    decryptOut (finished m 0 s) = (true, s.mem.bytesAt s.srcAddr s.msgLen) := by
  have kept : ∀ {a n : Nat}, ¬ overlap s.dstAddr s.msgLen a n → ¬ overlap s.tagAddr 16 a n →
      m.bytesAt a n = s.mem.bytesAt a n := by
    intro a n dst tag
    refine Memory.bytesAt_congr fun x inside => frame x ?_ ?_
    · simp only [overlap, inRegion] at *; omega
    · simp only [overlap, inRegion] at *; omega
  obtain ⟨dstKey, dstNonce, dstAd, -⟩ := dst_apart_of_accepts accepts
  obtain ⟨tagKey, tagNonce, tagAd, -⟩ := tag_apart_of_accepts accepts
  show roccaDecrypt (m.bytesAt s.keyAddr 32) (m.bytesAt s.nonceAddr 16) (m.bytesAt s.adAddr s.adLen)
    (m.bytesAt s.srcAddr s.msgLen) (blockOfBytes (m.bytesAt s.tagAddr 16)) = _
  rw [kept dstKey tagKey, kept dstNonce tagNonce, kept dstAd tagAd, cipher, tag,
    blockOfBytes_blockBytes, encryptOut, roccaDecrypt_roccaEncrypt, if_pos rfl]

end Sys2Proof.Machine

namespace Sys2Proof.Proofs
open Sys2Proof.Machine

/-- Settles O58: the run of an accepted ENCRYPT; the tag is stored apart from the ciphertext. -/
theorem encryptCommandComputesRoccaEncrypt : Obligations.EncryptCommandComputesRoccaEncrypt := by
  intro s s₀ inv idle accepts accepted out
  have outIs : encryptOut s = out := rfl
  clear_value out
  obtain rfl := (exec_encrypt_next.mp accepted).trans (commandWrite_of_accepts idle accepts)
  obtain ⟨busy, run⟩ := inv.run_encrypt idle accepts
  have len := length_encryptOut s
  rw [outIs] at run len
  obtain ⟨-, -, -, -, apart⟩ := dst_apart_of_accepts accepts
  have tagLen := length_blockBytes out.2
  -- the stored strings are opaque from here on, so that no comparison of memories unfolds them
  generalize blockBytes out.2 = tagBytes at run tagLen ⊢
  obtain ⟨cipher, tag, frame⟩ := two_stores_apart inv.mem_wf len tagLen apart
  exact ⟨busy, _, run, cipher, tag, frame, rfl⟩

/-- Settles O59: the run of an accepted DECRYPT; when the tags differ the output is stored over the message. -/
theorem decryptCommandComputesRoccaDecrypt : Obligations.DecryptCommandComputesRoccaDecrypt := by
  intro s s₀ inv idle accepts accepted out
  have outIs : decryptOut s = out := rfl
  clear_value out
  obtain rfl := (exec_decrypt_next.mp accepted).trans (commandWrite_of_accepts idle accepts)
  have len := length_decryptOut s
  rw [outIs] at len
  cases verdict : out.1
  case true =>
    obtain ⟨busy, run⟩ := inv.run_decrypt idle accepts (outIs ▸ verdict)
    rw [outIs] at run
    refine ⟨busy, _, run, ?_, fun x outside => ?_, rfl⟩
    · have stored := Memory.bytesAt_putBytes_same inv.mem_wf s.dstAddr out.2
      rwa [len] at stored
    · exact Memory.byteAt_putBytes_outside inv.mem_wf s.dstAddr x out.2 (len ▸ outside)
  case false =>
    obtain ⟨busy, b, bLen, run⟩ := inv.run_decrypt_wiped idle accepts (outIs ▸ verdict)
    rw [outIs] at run
    obtain ⟨output, frame⟩ := two_stores_same inv.mem_wf bLen len rfl
    exact ⟨busy, _, run, output, frame, rfl⟩

/-- Settles O60: the two runs after each other. Neither output of ENCRYPT overlaps KEY, NONCE or AD, so that
DECRYPT finds them as they were, with the ciphertext in SRC and its tag in TAG. -/
theorem inPlaceRoundTripRestoresTheMessage : Obligations.InPlaceRoundTripRestoresTheMessage := by
  intro s s₀ inv idle inPlace encrypts decrypts accepted
  obtain ⟨-, t, run, cipher, tag, frame, shape⟩ :=
    encryptCommandComputesRoccaEncrypt s s₀ inv idle encrypts accepted
  have tInv : t.Inv := by
    obtain rfl := exec_encrypt_next.mp accepted
    exact (inv.after_commandWrite false).after_coreSteps run
  obtain ⟨m, rfl⟩ : ∃ m, t = finished m 0 s := ⟨t.mem, shape⟩
  have out := decryptOut_after_encrypt (m := m) encrypts (inPlace ▸ cipher) tag frame
  have idle' : (finished m 0 s).statusBusy = false := idle
  have decrypts' : (finished m 0 s).accepts true := (accepts_congr rfl rfl true).mpr decrypts
  obtain ⟨-, run'⟩ := tInv.run_decrypt idle' decrypts' (by rw [out])
  rw [out] at run'
  refine ⟨_, _, _, run, exec_decrypt_next.mpr (commandWrite_of_accepts idle' decrypts').symm,
    run', idle, rfl, rfl, ?_⟩
  have stored := Memory.bytesAt_putBytes_same tInv.mem_wf s.dstAddr
    (s.mem.bytesAt s.srcAddr s.msgLen)
  rw [Memory.length_bytesAt, ← inPlace] at stored
  rw [← inPlace]
  exact stored

end Sys2Proof.Proofs
end

section
/-! PROOFS. Decoding (30_encoding R72 to R87): both formats against the encoder, the selectors of no
micro-operation, and the instruction a step runs (45_commands R150). -/

namespace Sys2Proof.Machine

/-- R87: the two command rows compare all 32 bits. -/
theorem cmdRows_filter_length (w : BitVec 32) :
    (cmdRows.filter fun r => r.selects w).length ≤ 1 := by
  have all : w &&& 0xFFFFFFFF#32 = w := BitVec.and_allOnes
  simp only [cmdRows, Row.selects, all, List.filter_cons, List.filter_nil, beq_iff_eq]
  by_cases encrypt : w = 1#32
  · simp [encrypt]
  · rw [if_neg encrypt]
    split <;> simp

/-- R87: the thirteen rows of the micro-operations, word by word. -/
theorem uselRows_filter_length :
    ∀ w : BitVec 6, (uselRows.filter fun r => r.selects w).length ≤ 1 := by decide

/-- The decoder reads every encoding back, whatever fills the don't-care bits. -/
theorem decode_encode (i : Instr) (dir full : Bool) : decode (encode i dir full) = .ok i := by
  cases i with
  | encrypt => rfl
  | decrypt => rfl
  | uLoad => exact decodeUsel_load dir full
  | uInitr => exact decodeUsel_initr dir full
  | uAdfull => exact decodeUsel_ad dir true
  | uAdpart => exact decodeUsel_ad dir false
  | uEncfull => exact decodeUsel_msg false true
  | uEncpart => exact decodeUsel_msg false false
  | uDecfull => exact decodeUsel_msg true true
  | uDecpart => exact decodeUsel_msg true false
  | uFinr => exact decodeUsel_finr dir full
  | uTagout => exact decodeUsel_tag false full
  | uTagchk => exact decodeUsel_tag true full
  | uWipe => exact decodeUsel_wipe dir full
  | uClear => exact decodeUsel_clear dir full

/-- A selector that decodes is the encoding whose don't-care bits are its own bits 1 and 0. -/
theorem encode_of_decodeUsel : ∀ w : BitVec 6, ∀ i ∈ microOps, decodeUsel w = .ok i →
    encode i (w.getLsbD 1) (w.getLsbD 0) = .usel w := by decide

/-- R79: PHASE 0 and 9 to 15 have no row. -/
theorem decodeUsel_noRow : ∀ (p : Phase) (dir full : Bool), p = 0 ∨ 9 ≤ p →
    decodeUsel (uselWord p dir full) = .error .unreachablePhase := by decide

/-- A CMD write with a legal word is its command, busy or not. -/
theorem hostWrite_of_decodes {v : Nat} {i : Instr} (decodes : decodeCmd (BitVec.ofNat 32 v) = .ok i)
    {s : State} : hostWrite 0 v s = exec i s := by
  cases busy : s.statusBusy
  case false => rw [hostWrite_cmd busy, cmdWrite, decodes]
  case true =>
    rw [hostWrite_busy busy]
    rcases decodeCmd_ok decodes with ⟨-, rfl⟩ | ⟨-, rfl⟩
    · exact (exec_encrypt_next.mpr (commandWrite_busy false busy).symm).symm
    · exact (exec_decrypt_next.mpr (commandWrite_busy true busy).symm).symm

end Sys2Proof.Machine

namespace Sys2Proof.Proofs
open Sys2Proof.Machine

/-- Settles O8: the rows by evaluation, the encoder's words instruction by instruction, and the decoder's words
format by format. -/
theorem decodeEncodeAgree : Obligations.DecodeEncodeAgree := by
  refine ⟨cmdRows_filter_length, uselRows_filter_length, fun i dir full _ => decode_encode i dir full,
    fun e i decodes => ?_⟩
  cases e with
  | cmd w =>
    rcases decodeCmd_ok decodes with ⟨rfl, rfl⟩ | ⟨rfl, rfl⟩
    · exact ⟨false, false, rfl⟩
    · exact ⟨false, false, rfl⟩
  | usel w =>
    exact ⟨_, _, encode_of_decodeUsel w i (decodeUsel_microOp w i decodes) decodes⟩

/-- Settles O7: no row matches these phases, and the invariant leaves a running command the phases 1 to 8. -/
theorem unmatchedSelectorIsUnreachable : Obligations.UnmatchedSelectorIsUnreachable := by
  refine ⟨fun s phase => ?_, fun s inv busy phase => ?_⟩
  · have noRow : decodeUsel (usel s) = .error .unreachablePhase := decodeUsel_noRow _ _ _ phase
    exact ⟨noRow, fun busy => by rw [coreStep, if_pos busy, noRow]⟩
  · obtain ⟨running, legal⟩ := inv.phase_of_busy busy
    rcases phase with idle | above
    · exact running idle
    · bv_omega

/-- Settles O9: thirteen words, each by evaluation of the decoder. -/
theorem writtenOutWordsDecode : Obligations.WrittenOutWordsDecode := by
  unfold Obligations.WrittenOutWordsDecode
  decide

/-- Settles O10: in each of the four forms the turn is a core step of a state with the same selector. -/
theorem stepRunsTheSelectedMicroOp : Obligations.StepRunsTheSelectedMicroOp := by
  intro s i busy decodes
  have core : ∀ h : List HostAction, coreStep { s with host := h } = exec i { s with host := h } :=
    fun h => coreStep_of_decode (s := { s with host := h }) busy decodes
  refine ⟨fun host => ?_, fun rest host => ?_, fun n rest host => ?_, fun rest host => ?_⟩
  · rw [step, turn, host]
    exact coreStep_of_decode busy decodes
  · rw [step, turn, host]
    exact core rest
  · rw [step, turn, host]
    exact core (.step (n + 1) :: rest)
  · have unchanged : { s with host := .run :: rest } = s := by rw [← host]
    rw [step, turn, host]
    exact (if_pos busy).trans ((core (.run :: rest)).trans (by rw [unchanged]))

/-- Settles O11: the turn is the write, and the write is its command. -/
theorem stepRunsTheWrittenCommand : Obligations.StepRunsTheWrittenCommand := by
  intro s v i rest host decodes
  rw [step, turn, host]
  exact hostWrite_of_decodes decodes

end Sys2Proof.Proofs
end

section
/-! PROOFS. The host port (10_state R30 to R34, 20_memory R60, 70_reset_and_hazards R180): what the host reads, its
memory moves, the reset input, and that none of them but the core's turn reaches the lanes. -/

namespace Sys2Proof.Machine

/-- The value of two words put together. -/
theorem toNat_append_eq_add {n k : Nat} (x : BitVec n) (y : BitVec k) :
    (x ++ y).toNat = y.toNat + 2 ^ k * x.toNat := by
  rw [BitVec.toNat_append, ← Nat.shiftLeft_add_eq_or_of_lt y.isLt, Nat.shiftLeft_eq, Nat.add_comm,
    Nat.mul_comm]

theorem hostRead_unmapped {rn : BitVec 4} (h : 11 ≤ rn) (s : State) : hostRead rn s = 0 := by
  have numbers : rn = 11 ∨ rn = 12 ∨ rn = 13 ∨ rn = 14 ∨ rn = 15 := by bv_omega
  rcases numbers with rfl | rfl | rfl | rfl | rfl <;> rfl

/-- A host memory move while BUSY = 1 is refused, for the region it touches or for BUSY. -/
theorem hostMemory_of_overlap {s : State} {a n : Nat} (busy : s.statusBusy = true)
    (touches : ∃ r ∈ regions s.dir s, overlap a n r.addr r.len) (move : Result) :
    hostMemory s a n move = .refused .borrowedRegion := by
  have touched : touchesBorrowed s a n = true := decide_eq_true touches
  rw [hostMemory_busy busy, if_pos touched]

theorem hostMemory_of_apart {s : State} {a n : Nat} (busy : s.statusBusy = true)
    (apart : ∀ r ∈ regions s.dir s, ¬ overlap a n r.addr r.len) (move : Result) :
    hostMemory s a n move = .refused .memoryWhileBusy := by
  have untouched : touchesBorrowed s a n = false :=
    decide_eq_false (fun ⟨r, member, touches⟩ => apart r member touches)
  rw [hostMemory_busy busy, if_neg (by simp [untouched])]

/-! A CMD write and a descriptor write neither read nor write the lanes, nor the bytes of memory. -/

/-- What a CMD write of a command does, with the case that decides it. -/
theorem commandWrite_cases (d : Bool) (s : State) :
    (s.statusBusy = true ∧ commandWrite d s = noteWbusy s) ∨
    (s.statusBusy = false ∧ s.accepts d ∧ commandWrite d s = start d (clearResult s)) ∨
    (s.statusBusy = false ∧ ∃ c, firstFailing d s c ∧
      commandWrite d s = refuse c (clearResult s)) := by
  rcases Bool.eq_false_or_eq_true s.statusBusy with busy | idle
  · exact .inl ⟨busy, commandWrite_busy d busy⟩
  rw [commandWrite_idle d idle]
  rcases checkAndStart_cases d (clearResult s) with
    ⟨ok, h⟩ | ⟨range, h⟩ | ⟨range, overlap, h⟩ | ⟨range, overlap, access, h⟩
  · exact .inr (.inl ⟨idle, (accepts_congr rfl rfl d).mp ok, h⟩)
  · exact .inr (.inr ⟨idle, _, .inl ⟨range, rfl⟩, h⟩)
  · exact .inr (.inr ⟨idle, _, .inr (.inl ⟨range, overlap, rfl⟩), h⟩)
  · exact .inr (.inr ⟨idle, _, .inr (.inr ⟨range, overlap, access, rfl⟩), h⟩)

section
variable (s : State) (L : Lanes) (m : Memory)

theorem commandWrite_withData (d : Bool) :
    commandWrite d { s with lanes := L, mem := m } =
      { commandWrite d s with lanes := L, mem := m } := by
  rcases commandWrite_cases d s with ⟨busy, h⟩ | ⟨idle, accepts, h⟩ | ⟨idle, c, failing, h⟩
  · rw [h]
    exact commandWrite_busy (s := { s with lanes := L, mem := m }) d busy
  · rw [h]
    exact commandWrite_of_accepts (s := { s with lanes := L, mem := m }) idle accepts
  · rw [h]
    exact commandWrite_of_failing (s := { s with lanes := L, mem := m }) idle failing

/-- Other lanes pass through a CMD write of a command. -/
theorem commandWrite_withLanes (d : Bool) :
    commandWrite d { s with lanes := L } = { commandWrite d s with lanes := L } := by
  have frame := (commandWrite_frame d s).2.2.1
  exact (commandWrite_withData s L s.mem d).trans (by rw [← frame])

/-- Another memory passes through a CMD write of a command. -/
theorem commandWrite_withMem (d : Bool) :
    commandWrite d { s with mem := m } = { commandWrite d s with mem := m } := by
  have frame := (commandWrite_frame d s).2.2.2
  exact (commandWrite_withData s s.lanes m d).trans (by rw [← frame])

theorem cmdWrite_lanes {t : State} {w : BitVec 32} (write : cmdWrite w s = .next t) :
    t.lanes = s.lanes ∧ cmdWrite w { s with lanes := L } = .next { t with lanes := L } := by
  by_cases encrypt : w = 1
  · subst encrypt
    obtain rfl := exec_encrypt_next.mp write
    exact ⟨(commandWrite_frame false s).2.2.2,
      exec_encrypt_next.mpr (commandWrite_withLanes s L false).symm⟩
  by_cases decrypt : w = 2
  · subst decrypt
    obtain rfl := exec_decrypt_next.mp write
    exact ⟨(commandWrite_frame true s).2.2.2,
      exec_decrypt_next.mpr (commandWrite_withLanes s L true).symm⟩
  rw [cmdWrite_illegal encrypt decrypt] at write ⊢
  obtain rfl := Host.Outcome.next.inj write
  exact ⟨rfl, rfl⟩

theorem writeDescriptor_withLanes (rn : BitVec 4) (v : Nat) :
    writeDescriptor rn v { s with lanes := L } = { writeDescriptor rn v s with lanes := L } := by
  rw [writeDescriptor_eq, writeDescriptor_eq]

theorem hostWrite_lanes {t : State} {rn : BitVec 4} {v : Nat} (write : hostWrite rn v s = .next t) :
    t.lanes = s.lanes ∧ hostWrite rn v { s with lanes := L } = .next { t with lanes := L } := by
  rcases Bool.eq_false_or_eq_true s.statusBusy with busy | idle
  · rw [hostWrite_busy busy] at write
    obtain rfl := Host.Outcome.next.inj write
    exact ⟨rfl, hostWrite_busy (s := { s with lanes := L }) busy rn v⟩
  by_cases cmd : rn = 0
  · subst cmd
    rw [hostWrite_cmd idle] at write
    rw [hostWrite_cmd (s := { s with lanes := L }) idle]
    exact cmdWrite_lanes s L write
  · rw [hostWrite_notCmd idle cmd] at write
    obtain rfl := Host.Outcome.next.inj write
    refine ⟨writeDescriptor_lanes rn v s, ?_⟩
    rw [hostWrite_notCmd (s := { s with lanes := L }) idle cmd, writeDescriptor_withLanes]

end

end Sys2Proof.Machine

namespace Sys2Proof.Proofs
open Sys2Proof.Machine

/-- Settles O1: every register of the reset state, and the turn of an idle core. -/
theorem resetLeavesTheStatedValues : Obligations.ResetLeavesTheStatedValues :=
  ⟨⟨rfl, rfl, rfl, rfl, rfl, rfl, rfl, rfl, rfl, rfl, rfl⟩, by decide, by decide, coreStep_idle rfl⟩

/-- Settles O2: the turn is the reset input, which takes memory and what is around the block from the state. -/
theorem resetInputResetsAllButMemory : Obligations.ResetInputResetsAllButMemory := by
  intro s rest host
  refine ⟨resetInput { s with host := rest }, ?_,
    ⟨rfl, rfl, rfl, rfl, rfl, rfl, rfl, rfl, rfl, rfl, rfl⟩, rfl, rfl⟩
  rw [step, turn, host]
  rfl

/-- Settles O15: the register map by evaluation, the unmapped numbers one by one, and the turn of a read. -/
theorem hostReadReturnsTheRegister : Obligations.HostReadReturnsTheRegister := by
  intro s
  refine ⟨rfl, rfl, rfl, rfl, fun rn h => hostRead_unmapped h s, fun rn rest host => ?_⟩
  rw [step, turn, host]
  rfl

/-- Settles O16: the value of a word put together from its fields. -/
theorem statusWordLayout : Obligations.StatusWordLayout := by
  intro s
  simp only [statusWord, toNat_append_eq_add, BitVec.toNat_ofBool, BitVec.toNat_ofNat]
  omega

/-- Settles O17: the two refusals of a busy core, and the two moves of an idle one. -/
theorem hostMemoryMoves : Obligations.HostMemoryMoves := by
  intro s a bs n
  refine ⟨fun busy => ?_, fun idle wf inside => ?_, fun idle inside => ?_⟩
  · exact ⟨fun touches => hostMemory_of_overlap busy touches _,
      fun touches => hostMemory_of_overlap busy touches _,
      fun apart => hostMemory_of_apart busy apart _, fun apart => hostMemory_of_apart busy apart _⟩
  · exact ⟨_, hostStore_next.mpr ⟨idle, .inr inside, rfl⟩, rfl, Memory.bytesAt_putBytes_same wf a bs,
      fun x outside => Memory.byteAt_putBytes_outside wf a x bs outside⟩
  · exact hostLoad_next.mpr ⟨idle, .inr inside, rfl⟩

/-- Settles O18: action by action; only writes compute a new state from the block's, and neither a command nor
a descriptor write looks at the lanes. -/
theorem hostNeverReachesTheLanes : Obligations.HostNeverReachesTheLanes := by
  intro act s t L notRun notStep notReset turn
  cases act with
  | write rn v => exact hostWrite_lanes s L turn
  | read rn =>
    obtain rfl := Host.Outcome.next.inj turn
    exact ⟨rfl, rfl⟩
  | store a bs =>
    obtain ⟨idle, inside, rfl⟩ := hostStore_next.mp turn
    exact ⟨rfl, hostStore_next.mpr ⟨idle, inside, rfl⟩⟩
  | load a n =>
    obtain ⟨idle, inside, rfl⟩ := hostLoad_next.mp turn
    exact ⟨rfl, hostLoad_next.mpr ⟨idle, inside, rfl⟩⟩
  | run => exact absurd rfl notRun
  | step n => exact absurd rfl (notStep n)
  | reset => exact absurd rfl notReset

end Sys2Proof.Proofs
end

section
/-! PROOFS. The remaining statements of 41_init_uops, 42_absorb_uops, 43_message_uops and 44_finalize_uops about single
micro-operations: the rounds (R111, R130), the tag comparison (R132), the wipe (R134), the end (R135), and where
a meaning stops (log 7, log 8). -/

namespace Sys2Proof.Machine

/-- The bytes read are those of a Block exactly when they make that Block. -/
theorem eq_blockBytes_iff {b : Bytes} (len : b.length = 16) (t : Block) :
    b = blockBytes t ↔ t = blockOfBytes b := by
  constructor
  · rintro rfl
    exact (blockOfBytes_blockBytes t).symm
  · rintro rfl
    exact (blockBytes_blockOfBytes b len).symm

/-- A partial step with no byte left or more than 31 stops (log 7). -/
theorem partialThen_of_outside {len pos : Nat} (h : ¬ (pos < len ∧ len - pos ≤ 31))
    (k : Nat → Result) : partialThen len pos k = .fault .partialLengthNot1To31 := if_neg h

/-- A string of one byte stored over a region: that byte inside, the old one outside. -/
theorem Memory.byteAt_putBytes_replicate {m : Memory} (wf : m.wf) (a n x : Nat) (b : Byte) :
    (m.putBytes a (List.replicate n b)).byteAt x = if inRegion x a n then b else m.byteAt x := by
  split
  next inside =>
    obtain ⟨k, rfl⟩ := Nat.exists_eq_add_of_le inside.1
    have hk : k < (List.replicate n b).length := by
      have := inside.2
      rw [List.length_replicate]
      omega
    rw [Memory.byteAt_putBytes_inside wf a k _ hk, List.getElem_replicate]
  next outside =>
    exact Memory.byteAt_putBytes_outside wf a x _ (by rwa [List.length_replicate])

end Sys2Proof.Machine

namespace Sys2Proof.Proofs
open Sys2Proof.Machine

/-- Settles O25: one round with Z0 and Z1 and the successor of AfterInit, written out. -/
theorem uInitrRunsOneRound : Obligations.UInitrRunsOneRound :=
  ⟨decodeUsel_initr, fun _ => exec_uInitr_next.mpr rfl⟩

/-- Settles O32: one round with the Blocks of the two lengths, whose values are the lengths in bits. -/
theorem uFinrAbsorbsTheLengths : Obligations.UFinrAbsorbsTheLengths :=
  ⟨decodeUsel_finr, fun s adLen msgLen =>
    ⟨lenBlock s.adLen, lenBlock s.msgLen, toNat_lenBlock adLen, toNat_lenBlock msgLen,
      exec_uFinr_next.mpr ⟨⟨adLen, msgLen⟩, rfl⟩⟩⟩

/-- Settles O34: TagDiff is 0 exactly when the sixteen bytes read are those of the tag. -/
theorem uTagchkComparesTheTag : Obligations.UTagchkComparesTheTag := by
  refine ⟨decodeUsel_tag true, fun s tagHolds => exec_uTagchk_next.mpr ⟨tagHolds, ?_⟩⟩
  simp only [tagDiff_eq_zero_iff, eq_blockBytes_iff (Memory.length_bytesAt s.mem s.tagAddr 16)]
  rfl

/-- Settles O35: one string of 0xAA stored over canonical memory. -/
theorem uWipeOverwritesTheOutput : Obligations.UWipeOverwritesTheOutput :=
  ⟨decodeUsel_wipe, fun s wf dstHolds =>
    ⟨_, exec_uWipe_next.mpr ⟨dstHolds, rfl⟩,
      fun x => Memory.byteAt_putBytes_replicate wf s.dstAddr s.msgLen x wipeByte, rfl⟩⟩

/-- Settles O36: the meaning of U_CLEAR, written out. -/
theorem uClearEndsTheCommand : Obligations.UClearEndsTheCommand :=
  ⟨decodeUsel_clear, fun _ => exec_uClear_next.mpr rfl⟩

/-- Settles O37: the guards of the three partial forms and of U_FINR. -/
theorem stopsOutsideTheNamedLengths : Obligations.StopsOutsideTheNamedLengths := by
  refine fun s => ⟨fun ad => ?_, fun msg => ⟨?_, ?_⟩, fun long => ?_⟩
  · rw [exec, execUAdpart, partialThen_of_outside ad]
  · rw [exec, execUEncpart, partialThen_of_outside msg]
  · rw [exec, execUDecpart, partialThen_of_outside msg]
  · have notBelow : ¬ (s.adLen < 2 ^ 125 ∧ s.msgLen < 2 ^ 125) := by omega
    rw [exec, execUFinr, if_neg notBelow]

end Sys2Proof.Proofs
end

section
/-! PROOFS. One AES round byte by byte (40_datapath_functions R91 to R96), and the S-box table against its formula
(R92). -/

namespace Sys2Proof.Machine

section
variable (b : Block)

theorem blockByte_subBytes {k : Nat} (h : k < 16) :
    blockByte (subBytes b) k = sbox (blockByte b k) := by
  rw [subBytes, blockByte_blockOfBytes _ (by simp) k (by simpa using h), List.getElem_map,
    getElem_blockBytes]

/-- R93, by row and column. -/
theorem blockByte_shiftRows {c r : Nat} (hc : c < 4) (hr : r < 4) :
    blockByte (shiftRows b) (4 * c + r) = blockByte b (4 * ((c + r) % 4) + r) := by
  have column : (4 * c + r) / 4 = c := by omega
  have row : (4 * c + r) % 4 = r := by omega
  rw [shiftRows, blockByte_blockOfBytes _ (by simp) _ (by simp; omega), List.getElem_map,
    List.getElem_range, column, row]

/-- R94, by row and column. -/
theorem blockByte_mixColumns {c r : Nat} (hc : c < 4) (hr : r < 4) :
    blockByte (mixColumns b) (4 * c + r) =
      (mixColumn (blockByte b (4 * c)) (blockByte b (4 * c + 1)) (blockByte b (4 * c + 2))
        (blockByte b (4 * c + 3)))[r]'(by simpa [mixColumn] using hr) := by
  have len : ((List.range 4).flatMap fun c => mixColumn (blockByte b (4 * c))
      (blockByte b (4 * c + 1)) (blockByte b (4 * c + 2)) (blockByte b (4 * c + 3))).length = 16 := rfl
  rw [mixColumns, blockByte_blockOfBytes _ len _ (by omega)]
  -- the sixteen places of the string, each with the byte the definition lists there
  interval_cases c <;> interval_cases r <;> rfl

/-- What ShiftRows brings to row `r` of column `c`, after SubBytes. -/
theorem blockByte_shiftRows_subBytes {c r : Nat} (hc : c < 4) (hr : r < 4) :
    blockByte (shiftRows (subBytes b)) (4 * c + r) =
      sbox (blockByte b (4 * ((c + r) % 4) + r)) := by
  rw [blockByte_shiftRows _ hc hr, blockByte_subBytes _ (by omega)]

/-- R96: the column of the mixed S-box images, the key byte last. -/
theorem blockByte_aesRound (k : Block) {c r : Nat} (hc : c < 4) (hr : r < 4) :
    let a := fun r => sbox (blockByte b (4 * ((c + r) % 4) + r))
    blockByte (aesRound b k) (4 * c + r) =
      (mixColumn (a 0) (a 1) (a 2) (a 3))[r]'(by simpa [mixColumn] using hr) ^^^
        blockByte k (4 * c + r) := by
  have row := fun {r : Nat} => blockByte_shiftRows_subBytes b (r := r) hc
  have first : blockByte (shiftRows (subBytes b)) (4 * c) = _ := row (r := 0) (by decide)
  simp only [aesRound, blockByte_xor, blockByte_mixColumns _ hc hr, first, row (r := 1) (by decide),
    row (r := 2) (by decide), row (r := 3) (by decide)]

end

/-- The inverse in GF(2^8), found from the table by undoing the affine map of R92. -/
def sboxInverse (x : Byte) : Byte :=
  (sbox x).rotateLeft 1 ^^^ (sbox x).rotateLeft 3 ^^^ (sbox x).rotateLeft 6 ^^^ 0x05#8

end Sys2Proof.Machine

namespace Sys2Proof.Proofs
open Sys2Proof.Machine

/-- Settles O48: the four rows of a column. -/
theorem aesRoundByteByByte : Obligations.AesRoundByteByByte :=
  fun b k _ hc =>
    ⟨blockByte_aesRound b k hc (r := 0) (by decide), blockByte_aesRound b k hc (r := 1) (by decide),
      blockByte_aesRound b k hc (r := 2) (by decide), blockByte_aesRound b k hc (r := 3) (by decide)⟩

/-- Settles O47: the inverse of each of the 256 bytes, checked by evaluation. -/
theorem sboxTableMatchesItsFormula : Obligations.SboxTableMatchesItsFormula := by
  have checked : ∀ x : Byte, (if x = 0 then sboxInverse x = 0 else gfMul x (sboxInverse x) = 1) ∧
      sbox x = sboxAffine (sboxInverse x) := by decide +kernel
  exact fun x => ⟨sboxInverse x, checked x⟩

end Sys2Proof.Proofs
end

section
/-! PROOFS. All instructions at once: when a meaning goes on, the state it answers and the string it stores, each as
one function of the instruction; and the frames over all fifteen (20_memory R56, R57, 10_state R35, R37). -/

namespace Sys2Proof.Machine

/-- Where an instruction stores (20_memory R56). -/
def storeAddr : Instr → State → Nat
  | .uEncfull, s | .uDecfull, s | .uEncpart, s | .uDecpart, s => dstChunkAddr s
  | .uTagout, s => s.tagAddr
  | .uWipe, s => s.dstAddr
  | _, _ => 0

/-- The string an instruction stores, empty for those that store none (R120 to R123, R131, R134). -/
def storeBytes : Instr → State → Bytes
  | .uEncfull, s | .uDecfull, s => fullOut s
  | .uEncpart, s | .uDecpart, s => partOut s
  | .uTagout, s => blockBytes (tagOf s.lanes)
  | .uWipe, s => List.replicate s.msgLen wipeByte
  | _, _ => []

/-- When the meaning of an instruction goes on: its accesses lie in the space and its lengths are named. -/
def proceeds : Instr → State → Prop
  | .uLoad, s => s.platform.holds s.keyAddr 32 ∧ s.platform.holds s.nonceAddr 16
  | .uAdfull, s => s.platform.holds (adChunkAddr s) 32
  | .uAdpart, s => (s.adpos < s.adLen ∧ s.adLen - s.adpos ≤ 31) ∧
      s.platform.holds (adChunkAddr s) (s.adLen - s.adpos)
  | .uEncfull, s | .uDecfull, s =>
      s.platform.holds (srcChunkAddr s) 32 ∧ s.platform.holds (dstChunkAddr s) 32
  | .uEncpart, s | .uDecpart, s => (s.mpos < s.msgLen ∧ s.msgLen - s.mpos ≤ 31) ∧
      s.platform.holds (srcChunkAddr s) (s.msgLen - s.mpos) ∧
      s.platform.holds (dstChunkAddr s) (s.msgLen - s.mpos)
  | .uFinr, s => s.adLen < 2 ^ 125 ∧ s.msgLen < 2 ^ 125
  | .uTagout, s | .uTagchk, s => s.platform.holds s.tagAddr 16
  | .uWipe, s => s.platform.holds s.dstAddr s.msgLen
  | .encrypt, _ | .decrypt, _ | .uInitr, _ | .uClear, _ => True

/-- Whether the tag in memory is that of the lanes (R132). -/
def tagsAgree (s : State) : Bool :=
  tagDiff (tagOf s.lanes) (blockOfBytes (s.mem.bytesAt s.tagAddr 16)) == 0

/-- The state an instruction answers where it goes on. -/
def nextState : Instr → State → State
  | .encrypt, s => commandWrite false s
  | .decrypt, s => commandWrite true s
  | .uLoad, s => { s with
      lanes := initLanes (s.mem.bytesAt s.keyAddr 32) (s.mem.bytesAt s.nonceAddr 16)
      rc := 0, phase := Phase.initr }
  | .uInitr, s => finishRound (afterInit s) { s with lanes := update s.lanes z0 z1 }
  | .uAdfull, s => { s with
      lanes := absorb s.lanes (s.mem.bytesAt (adChunkAddr s) 32), adpos := s.adpos + 32
      phase := afterAD s (s.adpos + 32) }
  | .uAdpart, s => { s with
      lanes := absorb s.lanes (pad32 (s.mem.bytesAt (adChunkAddr s) (s.adLen - s.adpos)))
      adpos := s.adLen, phase := afterAD s s.adLen }
  | .uEncfull, s => { s with
      mem := s.mem.putBytes (dstChunkAddr s) (fullOut s)
      lanes := absorb s.lanes (s.mem.bytesAt (srcChunkAddr s) 32), mpos := s.mpos + 32
      phase := afterMSG s (s.mpos + 32) }
  | .uDecfull, s => { s with
      mem := s.mem.putBytes (dstChunkAddr s) (fullOut s)
      lanes := absorb s.lanes (fullOut s), mpos := s.mpos + 32
      phase := afterMSG s (s.mpos + 32) }
  | .uEncpart, s => { s with
      mem := s.mem.putBytes (dstChunkAddr s) (partOut s)
      lanes := absorb s.lanes (partIn s), mpos := s.msgLen, phase := Phase.finr }
  | .uDecpart, s => { s with
      mem := s.mem.putBytes (dstChunkAddr s) (partOut s)
      lanes := absorb s.lanes (pad32 (partOut s)), mpos := s.msgLen, phase := Phase.finr }
  | .uFinr, s => finishRound Phase.tag
      { s with lanes := update s.lanes (lenBlock s.adLen) (lenBlock s.msgLen) }
  | .uTagout, s => { s with
      mem := s.mem.putBytes s.tagAddr (blockBytes (tagOf s.lanes)), phase := Phase.clear }
  | .uTagchk, s => { s with
      statusCode := if tagsAgree s then s.statusCode else 1
      phase := if tagsAgree s then Phase.clear else Phase.wipe }
  | .uWipe, s => { s with
      mem := s.mem.putBytes s.dstAddr (List.replicate s.msgLen wipeByte), phase := Phase.clear }
  | .uClear, s => { s with
      lanes := Lanes.zero, rc := 0, adpos := 0, mpos := 0, dir := false
      statusBusy := false, statusDone := true, phase := Phase.idle }

/-- The meaning of every instruction, said once. -/
theorem exec_next_iff {i : Instr} {s t : State} :
    exec i s = .next t ↔ proceeds i s ∧ t = nextState i s := by
  cases i with
  | encrypt => exact exec_encrypt_next.trans (iff_of_eq (true_and _)).symm
  | decrypt => exact exec_decrypt_next.trans (iff_of_eq (true_and _)).symm
  | uLoad => exact exec_uLoad_next
  | uInitr => exact exec_uInitr_next.trans (iff_of_eq (true_and _)).symm
  | uAdfull => exact exec_uAdfull_next
  | uAdpart => exact exec_uAdpart_next.trans and_assoc.symm
  | uEncfull => exact exec_uEncfull_next
  | uEncpart => exact exec_uEncpart_next.trans and_assoc.symm
  | uDecfull => exact exec_uDecfull_next
  | uDecpart => exact exec_uDecpart_next.trans and_assoc.symm
  | uFinr => exact exec_uFinr_next
  | uTagout => exact exec_uTagout_next
  | uTagchk =>
    refine exec_uTagchk_next.trans (and_congr_right fun _ => ?_)
    simp only [nextState, tagsAgree, beq_iff_eq]
    split <;> rfl
  | uWipe => exact exec_uWipe_next
  | uClear => exact exec_uClear_next.trans (iff_of_eq (true_and _)).symm

section
variable (i : Instr) (s : State)

/-- Memory after an instruction: its string stored, and nothing else. -/
theorem nextState_mem :
    (nextState i s).mem = s.mem.putBytes (storeAddr i s) (storeBytes i s) := by
  cases i with
  | encrypt => exact (commandWrite_frame false s).2.2.1
  | decrypt => exact (commandWrite_frame true s).2.2.1
  | _ => simp only [nextState, finishRound_mem, storeAddr, storeBytes, Memory.putBytes]

theorem nextState_descriptors : (nextState i s).descriptors = s.descriptors := by
  cases i with
  | encrypt => exact (commandWrite_frame false s).1
  | decrypt => exact (commandWrite_frame true s).1
  | _ => simp [nextState, State.descriptors]

theorem nextState_outside : (nextState i s).outside = s.outside := by
  cases i with
  | encrypt => exact (commandWrite_frame false s).2.1
  | decrypt => exact (commandWrite_frame true s).2.1
  | _ => simp [nextState, State.outside]

variable {i s}

/-- The stretch an instruction stores to is the one its row of the access table writes. -/
theorem exists_mem_writes_iff (goes : proceeds i s) (x : Nat) :
    (∃ p ∈ writes i s, inRegion x p.1 p.2) ↔
      inRegion x (storeAddr i s) (storeBytes i s).length := by
  cases i with
  | uEncpart => simp [writes, storeAddr, storeBytes, length_partOut s goes.1.2]
  | uDecpart => simp [writes, storeAddr, storeBytes, length_partOut s goes.1.2]
  | _ => simp [writes, storeAddr, storeBytes]

/-- With another memory that agrees on the stretches read, an instruction stores the same string and answers
the same state but for memory (20_memory R57). -/
theorem nextState_withMem {m : Memory}
    (agree : ∀ p ∈ reads i s, m.bytesAt p.1 p.2 = s.mem.bytesAt p.1 p.2) :
    nextState i { s with mem := m } =
      { nextState i s with mem := m.putBytes (storeAddr i s) (storeBytes i s) } := by
  cases i with
  | encrypt => exact commandWrite_withMem s m false
  | decrypt => exact commandWrite_withMem s m true
  | _ => simp_all [nextState, reads, storeAddr, storeBytes, fullOut, partOut, partIn, adChunkAddr,
      srcChunkAddr, dstChunkAddr, afterAD, afterMSG, afterInit, finishRound, tagsAgree, Memory.putBytes]

end

/-- A byte of a stored string does not depend on the memory below it. -/
theorem Memory.byteAt_putBytes_congr {m m' : Memory} (wf : m.wf) (wf' : m'.wf) {a x : Nat}
    {bs : Bytes} (inside : inRegion x a bs.length) :
    (m.putBytes a bs).byteAt x = (m'.putBytes a bs).byteAt x := by
  obtain ⟨k, rfl⟩ := Nat.exists_eq_add_of_le inside.1
  have hk : k < bs.length := by have := inside.2; omega
  rw [Memory.byteAt_putBytes_inside wf a k bs hk, Memory.byteAt_putBytes_inside wf' a k bs hk]

/-- Whether an instruction goes on does not depend on the bytes of memory. -/
theorem proceeds_withMem (i : Instr) (s : State) (m : Memory) :
    proceeds i { s with mem := m } ↔ proceeds i s := by
  cases i <;> exact Iff.rfl

end Sys2Proof.Machine

namespace Sys2Proof.Proofs
open Sys2Proof.Machine

/-- Settles O38: no next state differs from the state before in a descriptor or in what is around the block. -/
theorem instructionsKeepDescriptors : Obligations.InstructionsKeepDescriptors := by
  intro i s t run
  obtain ⟨-, rfl⟩ := exec_next_iff.mp run
  exact ⟨nextState_descriptors i s, nextState_outside i s⟩

/-- Settles O39: an instruction stores one string, in the stretch its row writes. -/
theorem instructionsWriteOnlyTheirStretch : Obligations.InstructionsWriteOnlyTheirStretch := by
  intro i s t wf run x outside
  obtain ⟨goes, rfl⟩ := exec_next_iff.mp run
  have notStored : ¬ inRegion x (storeAddr i s) (storeBytes i s).length := fun inside =>
    have ⟨p, member, inStretch⟩ := (exists_mem_writes_iff goes x).mpr inside
    outside p member inStretch
  rw [nextState_mem]
  exact Memory.byteAt_putBytes_outside wf _ x _ notStored

/-- Settles O40: over a memory that agrees on the stretches read the instruction stores the same string. -/
theorem microOpsReadOnlyTheirStretch : Obligations.MicroOpsReadOnlyTheirStretch := by
  intro i s t m run agree wf wf'
  obtain ⟨goes, rfl⟩ := exec_next_iff.mp run
  have sameReads : ∀ p ∈ reads i s, m.bytesAt p.1 p.2 = s.mem.bytesAt p.1 p.2 :=
    fun p member => Memory.bytesAt_congr (agree p member)
  refine ⟨_, exec_next_iff.mpr ⟨(proceeds_withMem i s m).mpr goes, rfl⟩, ?_, fun p member x inside => ?_⟩
  · rw [nextState_withMem sameReads]
  · have stored := (exists_mem_writes_iff goes x).mp ⟨p, member, inside⟩
    rw [nextState_withMem sameReads, nextState_mem]
    exact Memory.byteAt_putBytes_congr wf' wf stored

/-- Settles O41: instruction by instruction, the fields its next state names. -/
theorem registersWrittenOnlyWhereNamed : Obligations.RegistersWrittenOnlyWhereNamed := by
  intro i s t run
  obtain ⟨-, rfl⟩ := exec_next_iff.mp run
  cases i with
  | encrypt => simp [nextState, commandWrite_frame]
  | decrypt => simp [nextState, commandWrite_frame]
  | _ => simp [nextState, State.flags]

end Sys2Proof.Proofs
end

section
/-! PROOFS. The core's steps under the invariant: the phase graph (30_encoding R84), the accesses inside the regions
(45_commands R149, 20_memory R57), and what a step does not depend on (60_exceptions R166, R176). -/

namespace Sys2Proof.Machine

/-- A counted round leaves PHASE until its last one (30_encoding R81). -/
theorem finishRound_phase_of_le {s : State} (p : Phase) (S : Lanes) (rounds : s.rc ≤ 19) :
    (finishRound p { s with lanes := S }).phase = if s.rc < 19 then s.phase else p := by
  rcases eq_or_ne s.rc 19 with last | notLast
  · rw [finishRound_of_last p S last, last]
    rfl
  · rw [finishRound_of_notLast p S notLast, if_pos (BitVec.lt_of_le_ne rounds notLast)]

/-! The accesses of the selected micro-operation. -/

section
variable {s : State} {i : Instr} (decodes : decodeUsel (usel s) = .ok i)
include decodes

/-- The full and the partial form of a step of AD read one chunk. -/
theorem accesses_ad (phase : s.phase = Phase.ad) :
    reads i s = [(adChunkAddr s, adChunkLen s)] ∧ writes i s = [] := by
  obtain rfl := Except.ok.inj (decodes.symm.trans (usel_ad phase))
  unfold adChunkLen
  split
  next full => rw [min_eq_left full]; exact ⟨rfl, rfl⟩
  next part => rw [min_eq_right (by omega)]; exact ⟨rfl, rfl⟩

/-- The four forms of a step of MSG read one chunk and write one. -/
theorem accesses_msg (phase : s.phase = Phase.msg) :
    reads i s = [(srcChunkAddr s, msgChunkLen s)] ∧
      writes i s = [(dstChunkAddr s, msgChunkLen s)] := by
  obtain rfl := Except.ok.inj (decodes.symm.trans (usel_msg_by_bytesLeft phase))
  unfold msgChunkLen
  split
  next full => rw [min_eq_left full]; cases s.dir <;> exact ⟨rfl, rfl⟩
  next part => rw [min_eq_right (by omega)]; cases s.dir <;> exact ⟨rfl, rfl⟩

/-- The accesses of a running command (20_memory R56). -/
theorem State.Inv.accesses_cases (inv : s.Inv) (busy : s.statusBusy = true) :
    (reads i s = [(s.keyAddr, 32), (s.nonceAddr, 16)] ∧ writes i s = []) ∨
    (s.phase = Phase.ad ∧ reads i s = [(adChunkAddr s, adChunkLen s)] ∧ writes i s = []) ∨
    (s.phase = Phase.msg ∧ reads i s = [(srcChunkAddr s, msgChunkLen s)] ∧
      writes i s = [(dstChunkAddr s, msgChunkLen s)]) ∨
    (s.dir = false ∧ reads i s = [] ∧ writes i s = [(s.tagAddr, 16)]) ∨
    (s.dir = true ∧ reads i s = [(s.tagAddr, 16)] ∧ writes i s = []) ∨
    (reads i s = [] ∧ writes i s = [(s.dstAddr, s.msgLen)]) ∨
    (reads i s = [] ∧ writes i s = []) := by
  rcases inv.phaseCases busy with p | p | p | p | p | p | p | p
  · obtain rfl := Except.ok.inj (decodes.symm.trans (usel_load p))
    exact .inl ⟨rfl, rfl⟩
  · obtain rfl := Except.ok.inj (decodes.symm.trans (usel_initr p))
    exact .inr (.inr (.inr (.inr (.inr (.inr ⟨rfl, rfl⟩)))))
  · exact .inr (.inl ⟨p, accesses_ad decodes p⟩)
  · exact .inr (.inr (.inl ⟨p, accesses_msg decodes p⟩))
  · obtain rfl := Except.ok.inj (decodes.symm.trans (usel_finr p))
    exact .inr (.inr (.inr (.inr (.inr (.inr ⟨rfl, rfl⟩)))))
  · obtain rfl := Except.ok.inj (decodes.symm.trans (usel_tag p))
    rcases Bool.eq_false_or_eq_true s.dir with dir | dir
    · rw [dir]; exact .inr (.inr (.inr (.inr (.inl ⟨rfl, rfl, rfl⟩))))
    · rw [dir]; exact .inr (.inr (.inr (.inl ⟨rfl, rfl, rfl⟩)))
  · obtain rfl := Except.ok.inj (decodes.symm.trans (usel_wipe p))
    exact .inr (.inr (.inr (.inr (.inr (.inl ⟨rfl, rfl⟩)))))
  · obtain rfl := Except.ok.inj (decodes.symm.trans (usel_clear p))
    exact .inr (.inr (.inr (.inr (.inr (.inr ⟨rfl, rfl⟩)))))

end

/-- A stretch inside one of the regions that are, or are not, outputs. -/
def insideRegion (output : Bool) (s : State) (p : Nat × Nat) : Prop :=
  ∃ r ∈ regions s.dir s, r.addr ≤ p.1 ∧ p.1 + p.2 ≤ r.addr + r.len ∧ r.output = output

/-- Every stretch read lies in an input region, every stretch written in an output region. -/
theorem State.Inv.accesses_inside {s : State} {i : Instr} (inv : s.Inv)
    (busy : s.statusBusy = true) (decodes : decodeUsel (usel s) = .ok i) :
    (∀ p ∈ reads i s, insideRegion false s p) ∧ (∀ p ∈ writes i s, insideRegion true s p) := by
  rcases inv.accesses_cases decodes busy with
    ⟨r, w⟩ | ⟨p, r, w⟩ | ⟨p, r, w⟩ | ⟨d, r, w⟩ | ⟨d, r, w⟩ | ⟨r, w⟩ | ⟨r, w⟩
  all_goals
    rw [r, w]
    simp only [List.forall_mem_cons, List.not_mem_nil, false_imp_iff, implies_true, and_true,
      true_and]
  · exact ⟨⟨⟨.key, s.keyAddr, 32, false⟩, by simp [regions], le_rfl, le_rfl, rfl⟩,
      ⟨.nonce, s.nonceAddr, 16, false⟩, by simp [regions], le_rfl, le_rfl, rfl⟩
  · have := inv.cursors_ad p
    refine ⟨⟨.ad, s.adAddr, s.adLen, false⟩, by simp [regions], Nat.le_add_right .., ?_, rfl⟩
    simp only [adChunkAddr, adChunkLen]; omega
  · have := inv.cursors_msg p
    constructor
    · refine ⟨⟨.src, s.srcAddr, s.msgLen, false⟩, by simp [regions], Nat.le_add_right .., ?_, rfl⟩
      simp only [srcChunkAddr, msgChunkLen]; omega
    · refine ⟨⟨.dst, s.dstAddr, s.msgLen, true⟩, by simp [regions], Nat.le_add_right .., ?_, rfl⟩
      simp only [dstChunkAddr, msgChunkLen]; omega
  · exact ⟨⟨.tag, s.tagAddr, 16, true⟩, by simp [regions, d], le_rfl, le_rfl, rfl⟩
  · exact ⟨⟨.tag, s.tagAddr, 16, false⟩, by simp [regions, d], le_rfl, le_rfl, rfl⟩
  · exact ⟨⟨.dst, s.dstAddr, s.msgLen, true⟩, by simp [regions], le_rfl, le_rfl, rfl⟩

/-! The regions of a running command. -/

/-- DST, and for ENCRYPT TAG, are the outputs (45_commands R149). -/
theorem output_cases {d : Bool} {s : State} {r : Region} (member : r ∈ regions d s)
    (output : r.output = true) :
    (r.addr = s.dstAddr ∧ r.len = s.msgLen) ∨ (d = false ∧ r.addr = s.tagAddr ∧ r.len = 16) := by
  simp only [regions, List.mem_cons, List.not_mem_nil, or_false] at member
  rcases member with rfl | rfl | rfl | rfl | rfl | rfl
  case inr.inr.inr.inr.inl => exact .inl ⟨rfl, rfl⟩
  case inr.inr.inr.inr.inr => exact .inr ⟨by simpa using output, rfl, rfl⟩
  all_goals contradiction

/-- An input region other than SRC in place lies apart from the outputs (45_commands R147). -/
theorem input_apart {d : Bool} {s : State} {r : Region} (accepts : s.accepts d)
    (member : r ∈ regions d s) (input : r.output = false)
    (notInPlace : r.name = .src → s.srcAddr ≠ s.dstAddr) :
    ¬ overlap s.dstAddr s.msgLen r.addr r.len ∧
      (d = false → ¬ overlap s.tagAddr 16 r.addr r.len) := by
  obtain ⟨dKey, dNonce, dAd, dSrc, dTag⟩ := dst_apart_of_accepts accepts
  have tagApart : d = false → _ := fun encrypts => tag_apart_of_accepts (encrypts ▸ accepts)
  simp only [regions, List.mem_cons, List.not_mem_nil, or_false] at member
  rcases member with rfl | rfl | rfl | rfl | rfl | rfl
  · exact ⟨dKey, fun encrypts => (tagApart encrypts).1⟩
  · exact ⟨dNonce, fun encrypts => (tagApart encrypts).2.1⟩
  · exact ⟨dAd, fun encrypts => (tagApart encrypts).2.2.1⟩
  · exact ⟨dSrc.resolve_left fun same => notInPlace rfl same.symm,
      fun encrypts => (tagApart encrypts).2.2.2.1⟩
  · contradiction
  · exact ⟨dTag, fun encrypts => by simp [encrypts] at input⟩

/-! What a step does not depend on. -/

/-- The accesses depend on the sequencing state and the descriptors only. -/
theorem accesses_congr {s s' : State} (sequencing : s.sequencing = s'.sequencing)
    (descriptors : s.descriptors = s'.descriptors) (i : Instr) :
    reads i s = reads i s' ∧ writes i s = writes i s' := by
  simp only [State.sequencing, Prod.mk.injEq] at sequencing
  rw [descriptors_eq_iff] at descriptors
  cases i <;> simp [reads, writes, adChunkAddr, srcChunkAddr, dstChunkAddr, sequencing, descriptors]

/-- Every micro-operation but U_TAGCHK goes on by the sequencing state and the descriptors only. -/
theorem nextState_sequencing_congr {s s' : State} (sequencing : s.sequencing = s'.sequencing)
    (descriptors : s.descriptors = s'.descriptors) {i : Instr} (microOp : i ∈ microOps)
    (notTagchk : i ≠ .uTagchk) : (nextState i s).sequencing = (nextState i s').sequencing := by
  simp only [State.sequencing, Prod.mk.injEq] at sequencing
  rw [descriptors_eq_iff] at descriptors
  cases i with
  | encrypt => simp [microOps] at microOp
  | decrypt => simp [microOps] at microOp
  | uTagchk => contradiction
  | _ => simp [nextState, State.sequencing, afterInit, afterAD, afterMSG, sequencing, descriptors]

/-- Only PHASE TAG with DIR = 1 selects U_TAGCHK (30_encoding R77). -/
theorem selects_tagchk : ∀ (p : Phase) (dir full : Bool),
    decodeUsel (uselWord p dir full) = .ok .uTagchk → p = 6 ∧ dir = true := by decide

section
variable (s : State) (w : Bool) (h : List HostAction) (o : List Seen)

/-- A micro-operation goes on and computes the same with other values of WBUSY and on the host's side. -/
theorem nextState_withHostSide {i : Instr} (microOp : i ∈ microOps) :
    nextState i { s with statusWbusy := w, host := h, seen := o } =
      { nextState i s with statusWbusy := w, host := h, seen := o } := by
  cases i with
  | encrypt => simp [microOps] at microOp
  | decrypt => simp [microOps] at microOp
  | _ => simp [nextState, afterInit, afterAD, afterMSG, finishRound, fullOut, partOut, partIn,
      adChunkAddr, srcChunkAddr, dstChunkAddr, tagsAgree]

theorem proceeds_withHostSide (i : Instr) :
    proceeds i { s with statusWbusy := w, host := h, seen := o } ↔ proceeds i s := by
  cases i <;> exact Iff.rfl

end

end Sys2Proof.Machine

namespace Sys2Proof.Proofs
open Sys2Proof.Machine

/-- Settles O42: the accesses of the running command's phase, in its regions. -/
theorem accessesStayInsideTheRegions : Obligations.AccessesStayInsideTheRegions := by
  intro s i inv busy decodes
  obtain ⟨read, write⟩ := inv.accesses_inside busy decodes
  exact ⟨fun p member _ => read p member, fun p member _ => write p member⟩

/-- Settles O43: the step changes only the stretches written, which lie in outputs, and those lie apart from
the inputs. -/
theorem coreStepWritesOnlyOutputs : Obligations.CoreStepWritesOnlyOutputs := by
  intro s t inv busy step
  obtain ⟨i, decodes, run⟩ := coreStep_next busy step
  have frame : ∀ x, ¬ inRegion x s.dstAddr s.msgLen →
      (s.dir = false → ¬ inRegion x s.tagAddr 16) → t.mem.byteAt x = s.mem.byteAt x := by
    intro x notDst notTag
    refine instructionsWriteOnlyTheirStretch i s t inv.mem_wf run x fun p member inside => ?_
    obtain ⟨r, isRegion, lower, upper, output⟩ := (inv.accesses_inside busy decodes).2 p member
    have inR : inRegion x r.addr r.len := ⟨by have := inside.1; omega, by have := inside.2; omega⟩
    rcases output_cases isRegion output with ⟨addr, len⟩ | ⟨encrypts, addr, len⟩
    · exact notDst (addr ▸ len ▸ inR)
    · exact notTag encrypts (addr ▸ len ▸ inR)
  refine ⟨frame, fun r member input notInPlace => Memory.bytesAt_congr fun x inside => ?_⟩
  obtain ⟨dst, tag⟩ := input_apart (inv.accepts busy) member input notInPlace
  refine frame x (fun inDst => dst ?_) (fun encrypts inTag => tag encrypts ?_)
  · simp only [overlap, inRegion] at *; omega
  · simp only [overlap, inRegion] at *; omega

/-- Settles O44: the next state of each phase. -/
theorem phaseGraph : Obligations.PhaseGraph := by
  intro s t inv busy step
  have answers : ∀ {u : State}, coreStep s = .next u → t = u := fun run =>
    Host.Outcome.next.inj (step.symm.trans run)
  have rounds : s.rc ≤ 19 := inv.roundCounted.1
  refine ⟨fun p => ?_, fun p => ?_, fun p => ?_, fun p => ?_, fun p => ?_, fun p d => ?_,
    fun p d => ?_, fun p => ?_, fun p => ?_⟩
  · rw [answers (inv.step_load p)]; rfl
  · rw [answers (inv.step_initr p), finishRound_phase_of_le _ _ rounds, p]; rfl
  · rw [answers (inv.step_ad p)]; rfl
  · rw [answers (inv.step_msg p)]; rfl
  · rw [answers (inv.step_finr p), finishRound_phase_of_le _ _ rounds, p]; rfl
  · rw [answers (inv.step_tagout p d)]; rfl
  · rw [answers (inv.step_tagchk p d)]
    split <;> rfl
  · rw [answers (inv.step_wipe p)]; rfl
  · rw [answers (inv.step_clear p)]; rfl

/-- Settles O45: the same selector and accesses, and the same sequencing state after every micro-operation but
U_TAGCHK, which chooses PHASE alone. -/
theorem sequenceIgnoresTheData : Obligations.SequenceIgnoresTheData := by
  intro s s' t t' inv inv' busy busy' sequencing descriptors step step'
  have sameSel : usel s = usel s' := by
    simp only [State.sequencing, Prod.mk.injEq] at sequencing
    rw [descriptors_eq_iff] at descriptors
    obtain ⟨phase, dir, -, adpos, mpos⟩ := sequencing
    obtain ⟨-, -, -, adLen, -, -, msgLen, -⟩ := descriptors
    exact usel_congr phase dir adpos mpos adLen msgLen
  obtain ⟨i, decodes, run⟩ := coreStep_next busy step
  obtain ⟨i', decodes', run'⟩ := coreStep_next busy' step'
  obtain rfl := Except.ok.inj (decodes.symm.trans (sameSel ▸ decodes'))
  obtain ⟨-, rfl⟩ := exec_next_iff.mp run
  obtain ⟨-, rfl⟩ := exec_next_iff.mp run'
  refine ⟨sameSel, accesses_congr sequencing descriptors, fun notTagchk => ?_, fun ⟨phase, dir⟩ => ?_⟩
  · refine nextState_sequencing_congr sequencing descriptors (decodeUsel_microOp _ i decodes) ?_
    rintro rfl
    exact notTagchk (selects_tagchk _ _ _ decodes)
  · have isTagchk : i = .uTagchk :=
      Except.ok.inj (decodes.symm.trans ((usel_tag phase).trans (congrArg _ (if_pos dir))))
    subst isTagchk
    have rest : s.sequencing.2 = s'.sequencing.2 := congrArg Prod.snd sequencing
    refine ⟨?_, rest⟩
    simp only [nextState]
    split
    · exact .inr rfl
    · exact .inl rfl

/-- Settles O46: with another WBUSY and host's side the same micro-operation is selected and computes the same. -/
theorem hostDoesNotDisturbTheRun : Obligations.HostDoesNotDisturbTheRun := by
  intro s t w h o busy step
  obtain ⟨i, decodes, run⟩ := coreStep_next busy step
  obtain ⟨goes, rfl⟩ := exec_next_iff.mp run
  have sameStep := coreStep_of_decode (s := { s with statusWbusy := w, host := h, seen := o }) busy decodes
  rw [sameStep, exec_next_iff]
  exact ⟨(proceeds_withHostSide s w h o i).mpr goes,
    (nextState_withHostSide s w h o (decodeUsel_microOp _ i decodes)).symm⟩

end Sys2Proof.Proofs
end
